-- ==== Sys2Proof/Word.lean ====
section
/-! DEFINITION. The word types of the block: the byte is the wire unit (30_encoding.md R70). -/

namespace Sys2Proof

/-- The wire unit (R10, R70): an 8-bit unsigned value. -/
abbrev Byte := BitVec 8

/-- A requested bus speed in bits per second, `SPEED_W` = 32 bits (R7, R180). -/
abbrev Bps := BitVec 32

/-- A payload register file: 15 entries of 8 bits (R29, R33). -/
abbrev PayloadFile := Vector Byte 15

end Sys2Proof
end

