-- ==== Sys2Proof/Config.lean ====
section
/-! DEFINITION. The constants the source fixes (00_scope.md R8) and the parameters of the block (R7). -/

namespace Sys2Proof

/-- `START`: the frame start byte (R8). -/
abbrev startByte : Byte := 0xAA#8

/-- `TERM`: the data-frame terminator (R8). -/
abbrev termByte : Byte := 0x55#8

/-- `CMD_MARK`: the second byte of a command/response frame (R8). -/
abbrev cmdMark : Byte := 0x55#8

/-- `INIT_TYPE`: the command-type byte of the init command (R8). -/
abbrev initType : Byte := 0x12#8

/-- `CMD_SIZE`: bytes of a command/response frame and of the init command (R8). -/
abbrev cmdSize : Nat := 20

/-- `OVERHEAD`: data-frame size minus payload length (R8). -/
abbrev overhead : Nat := 5

/-- `MAX_LEN`: the largest payload length (R8). -/
abbrev maxLen : Nat := 15

/-- `FALLBACK_BPS` (R8, R181). -/
abbrev fallbackBps : Bps := 500000

/-- `DATA_TYPE_MATCH`: what the masked type byte must equal (R7). -/
abbrev dataTypeMatch : Byte := 0xC0#8

/-- The two legal values of `DATA_TYPE_MASK` (R7, D6). -/
inductive DataTypeMask where
  | c0   -- 0xC0, the default: the top two bits
  | f0   -- 0xF0, the literal "high nibble"
deriving DecidableEq, Repr

/-- The mask byte itself (R7). -/
def DataTypeMask.bits : DataTypeMask → Byte
  | .c0 => 0xC0
  | .f0 => 0xF0

/-- `SPEED_CODE`: any finite map whose key set contains 500000 (R7, R181).
The code of 500000 has a field of its own, so that no table without that key can be written. -/
structure SpeedTable where
  /-- `SPEED_CODE(500000)`. -/
  code500k : Byte
  /-- The other keys, each with its code; the first entry of a key counts. -/
  others   : List (Bps × Byte)
deriving DecidableEq, Repr

/-- The parameters of the block (R7), fixed before the first edge (R39, R209). -/
structure Config where
  mask       : DataTypeMask
  /-- `TS_W`, the width of `ts` and `o_ts`; legal when at least 1. -/
  tsW        : Nat
  speedCodes : SpeedTable
deriving DecidableEq, Repr

/-- The legal parameter values of R7 that the types do not already force. -/
abbrev Config.legal (c : Config) : Prop := 1 ≤ c.tsW

/-- The default `SPEED_CODE` of R182. PRESUMED (log 8): `[from general knowledge, not in source]`. -/
def SpeedTable.default : SpeedTable where
  code500k := 0x03
  others :=
    [(1000000, 0x01), (800000, 0x02), (400000, 0x04), (250000, 0x05), (200000, 0x06), (125000, 0x07)] ++
    [(100000, 0x08), (50000, 0x09), (20000, 0x0A), (10000, 0x0B), (5000, 0x0C)]

/-- The default parameters: mask 0xC0 (D6, log 7), `TS_W` = 32 as in the test vectors (D7, log 6), the R182 table. -/
def Config.default : Config where
  mask := .c0
  tsW := 32
  speedCodes := .default

end Sys2Proof
end

