-- ==== Sys2Proof/Syntax.lean ====
section
/-! DEFINITION. The syntax: one constructor per row of spec/opcode_table.json, the CAN frame value, and the
outcomes of the reference decode function (40_synchronizer.md R102). -/

namespace Sys2Proof

/-- The span classes of the wire protocol, with the operands their rules list. -/
inductive Instr where
  /-- NOSTART (R104): the dropped head byte. -/
  | noStart (b : Byte)
  /-- BADTYPE (R105): the second byte of the head pair; only the 0xAA before it is consumed. -/
  | badType (t : Byte)
  /-- CMD_FRAME (R72, R160): the 17 body bytes at offsets 2..18 and the byte at offset 19. -/
  | cmdFrame (body : List Byte) (ck : Byte)
  /-- DATA_FRAME (R71, R130): `X` = T[5], `R` = T[4] (R75), identifier, payload, and the byte at offset L+4. -/
  | dataFrame (ext rsv : Bool) (id : BitVec 16) (payload : List Byte) (term : Byte)
  /-- INIT_CMD (R180): the requested bus speed. -/
  | initCmd (bps : Bps)
deriving DecidableEq, Repr

/-- The fields of a CAN Frame the reference step gives (R100); `captured_at` is attached at emission (R207). -/
structure Frame where
  identifier : BitVec 16
  length     : BitVec 4
  payload    : List Byte
  isExtended : Bool
deriving DecidableEq, Repr

/-- An emitted CAN Frame with its `captured_at` (R138). -/
structure CanFrame where
  frame      : Frame
  capturedAt : Nat
deriving DecidableEq, Repr

/-- The decode outcomes that consume bytes (R102). -/
inductive SpanOutcome where
  | noStart
  | badType
  | cmd (ok : Bool)
  | dataOk (f : Frame)
  | badTerm
deriving DecidableEq, Repr

/-- The result of the reference decode step (R100). -/
inductive DecodeStep where
  | wait
  | consume (k : Nat) (o : SpanOutcome)
deriving DecidableEq, Repr

/-- The frame of an outcome: only `DATA_OK` makes one (R102). -/
def SpanOutcome.frame? : SpanOutcome → Option Frame
  | .dataOk f => some f
  | .noStart => none
  | .badType => none
  | .cmd _ => none
  | .badTerm => none

/-- The span classes of the head-pair map (R76). -/
inductive SpanClass where
  | cmdFrame
  | dataFrame
  | badType
  | noStart
deriving DecidableEq, Repr

/-- A received row of the machine-readable table: mask and match over the head word `W` (R87). -/
structure HeadRow where
  cls   : SpanClass
  mask  : BitVec 16
  bits  : BitVec 16
deriving DecidableEq, Repr

/-- Why no span is decided yet (R108, R109). -/
inductive WaitReason where
  | emptyBuffer     -- no byte
  | loneStart       -- 0xAA alone
  | shortCommand    -- `AA 55` and fewer than 18 further bytes
  | shortData       -- `AA T`, `T` data class, fewer than L+5 bytes
deriving DecidableEq, Repr

/-- The decoder's answer: a span with the bytes it leaves, or the named reason it waits. -/
inductive Decoded where
  | span (i : Instr) (rest : List Byte)
  | wait (why : WaitReason)
deriving DecidableEq, Repr

end Sys2Proof
end

