-- ==== Sys2Proof/Machine/State.lean ====
section
/-! DEFINITION. The state of the block (10_state.md): registers, ports, the logical buffer, and the stimulus still to come. -/

namespace Sys2Proof.Machine

/-- The parse state `st` (R25). -/
inductive ParseState where
  | hunt
  | start
  | cmd
  | data
deriving DecidableEq, Repr

/-- The 2-bit encoding of `st` (R25, D30). -/
def ParseState.code : ParseState → BitVec 2
  | .hunt => 0
  | .start => 1
  | .cmd => 2
  | .data => 3

/-- The parse-state registers (R25 to R30). -/
structure ParseRegs where
  st   : ParseState
  pos  : BitVec 5
  wLen : BitVec 4
  wExt : Bool
  wId  : BitVec 16
  wPl  : PayloadFile
  csum : Byte
deriving DecidableEq, Repr

/-- The output registers (R31 to R34); `ts` is below `2 ^ TS_W` (log 6). -/
structure OutRegs where
  valid : Bool
  id    : BitVec 16
  len   : BitVec 4
  ext   : Bool
  pl    : PayloadFile
  ts    : Nat
deriving DecidableEq, Repr

/-- The input ports sampled at a rising edge (R21), without `clk` (the edge itself) and `speed_bps` (combinational, R186).
It is one row of a cycle program (R85). -/
structure PortVector where
  rst      : Bool
  clear    : Bool
  inValid  : Bool
  inData   : Byte
  outReady : Bool
  ts       : Nat
deriving DecidableEq, Repr

/-- All inputs low. -/
def PortVector.idle : PortVector :=
  { rst := false, clear := false, inValid := false, inData := 0, outReady := false, ts := 0 }

/-- A move of the surrounding agents (R20, R209). -/
inductive Stimulus where
  /-- A rising edge of `clk` with these input ports. -/
  | edge (v : PortVector)
  /-- The environment changes `speed_bps`, at any time (R209), with no clock edge (R186). -/
  | drive (bps : Bps)
deriving DecidableEq, Repr

/-- The machine. `cfg` is constant (log 1); `buf` is the logical buffer `B` (R52, log 3); `inp` holds the ports of the
current edge (log 12); `pending` is the stimulus still to come, oldest first (log 2). -/
structure State where
  cfg      : Config
  parse    : ParseRegs
  out      : OutRegs
  evt      : BitVec 6
  buf      : List Byte
  inp      : PortVector
  speedBps : Bps
  pending  : List Stimulus
deriving DecidableEq, Repr

/-- Why the machine stops. -/
inductive Fault where
  /-- Raised by `step` at an edge without `rst` in a state outside R37 and R52's relation, which no run from reset reaches.
  "treat it as `stuck`" (R37, I7). Safe: the model stops where the hardware has no specified next state (log 5). -/
  | stuck
deriving DecidableEq, Repr

/-- Why an instruction has no meaning. -/
inductive Refusal where
  /-- Raised by an arm of `exec` whose instruction has no meaning yet; no arm of this model does. Safe: the model stops. -/
  | notModelled (mnemonic : String)
deriving DecidableEq, Repr

/-- The parse registers after reset (R42). -/
def ParseRegs.reset : ParseRegs :=
  { st := .hunt, pos := 0, wLen := 0, wExt := false, wId := 0, wPl := Vector.replicate 15 0, csum := 0 }

/-- The output registers after reset (R42). -/
def OutRegs.reset : OutRegs :=
  { valid := false, id := 0, len := 0, ext := false, pl := Vector.replicate 15 0, ts := 0 }

/-- The machine right after an edge with `rst = 1` (R42, R250), default parameters, nothing pending.
DESIGN CHOICE: the ports are low and `speed_bps` is 0 (logs 11 and 12). -/
def State.reset : State :=
  { cfg := .default, parse := .reset, out := .reset, evt := 0, buf := [], inp := .idle, speedBps := 0, pending := [] }

end Sys2Proof.Machine
end

