-- ==== Sys2Proof/Machine/Flags.lean ====
section
/-! DEFINITION. The event flags `evt_r` (10_state.md R35): bit assignment, `signal`, and the outcomes an event vector names. -/

namespace Sys2Proof.Machine

/-- The six events (R35). -/
inductive Evt where
  | noStart
  | badType
  | cmd
  | cmdCkok
  | dataOk
  | badTerm
deriving DecidableEq, Repr

/-- The bit of each event in `evt_r` (R35). -/
def Evt.bit : Evt → BitVec 6
  | .noStart => 0b000001
  | .badType => 0b000010
  | .cmd     => 0b000100
  | .cmdCkok => 0b001000
  | .dataOk  => 0b010000
  | .badTerm => 0b100000

/-- `signal(EV)`: sets bit `EV` of the step's event vector (R12). -/
def State.signal (e : Evt) (s : State) : State := { s with evt := s.evt ||| e.bit }

/-- Whether an event bit is set. -/
def State.signals (e : Evt) (s : State) : Bool := s.evt &&& e.bit ≠ 0

/-- The event bits of one outcome (R102). -/
def evtOfOutcome : SpanOutcome → BitVec 6
  | .noStart => Evt.noStart.bit
  | .badType => Evt.badType.bit
  | .cmd ok => if ok then Evt.cmd.bit ||| Evt.cmdCkok.bit else Evt.cmd.bit
  | .dataOk _ => Evt.dataOk.bit
  | .badTerm => Evt.badTerm.bit

/-- The event vector of the outcomes of one step (R205): the union of their bits. -/
def evtOf (outs : List SpanOutcome) : BitVec 6 := outs.foldl (fun e o => e ||| evtOfOutcome o) 0

end Sys2Proof.Machine
end

