-- ==== Sys2Proof/WellFormed.lean ====
section
/-! DEFINITION. Which instructions are well formed: the operand values their encodings admit. -/

namespace Sys2Proof

/-- The operand ranges of each span class:
a NOSTART byte is not 0xAA (R104); a BADTYPE second byte is neither 0x55 nor data class (R105);
a command body has 17 bytes (R72); a data payload has at most 15 bytes, and with mask 0xF0 bits 5 and 4 of
the type byte are 0 (R71, R74, R75); every 32-bit speed is a request (R181, D16). -/
def Instr.wellFormed (c : Config) : Instr → Bool
  | .noStart b => b ≠ startByte
  | .badType t => t ≠ cmdMark && (t &&& c.mask.bits) ≠ dataTypeMatch
  | .cmdFrame body _ => body.length = 17
  | .dataFrame ext rsv _ payload _ =>
      decide (payload.length ≤ maxLen) && (c.mask = .c0 || (!ext && !rsv))
  | .initCmd _ => true

/-- The instructions the input port can carry: all but the generated one (R73, R87). -/
def Instr.received : Instr → Bool
  | .noStart _ => true
  | .badType _ => true
  | .cmdFrame _ _ => true
  | .dataFrame _ _ _ _ _ => true
  | .initCmd _ => false

end Sys2Proof
end

