-- ==== Sys2Proof/Decode.lean ====
section
/-! DEFINITION. The wire encoding (30_encoding.md): the type byte, the decoder of the head-pair table, the
reference decode function of 40_synchronizer.md R100 to R103, the init-command bytes of 43_command_encoder.md, and the encoder. -/

namespace Sys2Proof

/-! ### The type byte (R74, R75) and the identifier (R53) -/

/-- `T` is data class: `(T & DATA_TYPE_MASK) = 0xC0` (R74). -/
def dataClass (m : DataTypeMask) (t : Byte) : Bool := t &&& m.bits = dataTypeMatch

/-- `L = T[3:0]` (R75). -/
def typeLen (t : Byte) : BitVec 4 := t.extractLsb' 0 4

/-- `X = T[5]`, `is_extended` (R75). -/
def typeExt (t : Byte) : Bool := t.getLsbD 5

/-- `R = T[4]`, ignored by the block (R75, D11). -/
def typeRsv (t : Byte) : Bool := t.getLsbD 4

/-- The type byte with the given `X`, `R` and `L`: class bits `T[7:6]` are 11 (R75). -/
def typeByte (ext rsv : Bool) (len : BitVec 4) : Byte :=
  (0b11 : BitVec 2) ++ BitVec.ofBool ext ++ BitVec.ofBool rsv ++ len

/-- `id = zext_16(S[2]) | (zext_16(S[3]) << 8)` (R53, R79). -/
def identOf (lo hi : Byte) : BitVec 16 := lo.zeroExtend 16 ||| (hi.zeroExtend 16 <<< 8)

/-- The low byte of an identifier, at span offset 2 (R71). -/
def identLo (id : BitVec 16) : Byte := id.extractLsb' 0 8

/-- The high byte of an identifier, at span offset 3 (R71). -/
def identHi (id : BitVec 16) : Byte := id.extractLsb' 8 8

/-- The sum of a byte sequence modulo 256; the sum is exact before the `mod` (R10, R184). -/
def checksum (bytes : List Byte) : Byte := BitVec.ofNat 8 (bytes.map BitVec.toNat).sum

/-! ### The reference decode function (R100, R101, R103) -/

/-- The normative decode step, branch by branch as R100 writes it. -/
def decodeStep (m : DataTypeMask) (B : List Byte) : DecodeStep :=
  if B.length = 0 then .wait
  else if B.getD 0 0 ≠ startByte then .consume 1 .noStart
  else if B.length < 2 then .wait
  else
    let T := B.getD 1 0
    if T = cmdMark then
      if B.length ≥ cmdSize then
        .consume cmdSize (.cmd (B.getD 19 0 = checksum ((B.drop 2).take 17)))
      else .wait
    else if dataClass m T then
      let L := (typeLen T).toNat
      let n := L + overhead
      if B.length < n then .wait
      else if B.getD (n - 1) 0 = termByte then
        .consume n (.dataOk
          { identifier := identOf (B.getD 2 0) (B.getD 3 0)
            length := typeLen T
            payload := (B.drop 4).take L
            isExtended := typeExt T })
      else .consume n .badTerm
    else .consume 1 .badType

/-- The loop of R101 with a bound on its passes; a pass consumes at least one byte. -/
def decodePasses (m : DataTypeMask) : Nat → List Byte → List SpanOutcome × Nat
  | 0, _ => ([], 0)
  | n + 1, B =>
    match decodeStep m B with
    | .wait => ([], 0)
    | .consume k o =>
      let r := decodePasses m n (B.drop k)
      (o :: r.1, k + r.2)

/-- The reference decode pass (R101): the outcomes and the number of bytes consumed. -/
def decodeAll (m : DataTypeMask) (B : List Byte) : List SpanOutcome × Nat :=
  decodePasses m B.length B

/-- What a decode pass leaves for the next call: `drop(c, B)` (R101, R103). -/
def undecided (m : DataTypeMask) (B : List Byte) : List Byte := B.drop (decodeAll m B).2

/-- The reference stream semantics (R103): the outcomes of a session from buffer `B` over successive chunks, and the final buffer. -/
def decodeSession (m : DataTypeMask) (B : List Byte) : List (List Byte) → List SpanOutcome × List Byte
  | [] => ([], B)
  | X :: Xs =>
    let r := decodeSession m (undecided m (B ++ X)) Xs
    ((decodeAll m (B ++ X)).1 ++ r.1, r.2)

/-- The CAN frames of an outcome list, in order (R101). -/
def framesOf (outs : List SpanOutcome) : List Frame := outs.filterMap SpanOutcome.frame?

/-! ### The head-pair table (R76, R87) -/

/-- `W = (B[0] << 8) | B[1]` (R76). -/
def headWord (b0 b1 : Byte) : BitVec 16 := b0 ++ b1

/-- Rows 1 to 3 of the table, in priority order; the low byte of row 2's mask is `DATA_TYPE_MASK` (R76, R87). -/
def headRows (m : DataTypeMask) : List HeadRow :=
  [{ cls := .cmdFrame,  mask := 0xFFFF, bits := 0xAA55 },
   { cls := .dataFrame, mask := 0xFF00 ||| m.bits.zeroExtend 16, bits := 0xAAC0 },
   { cls := .badType,   mask := 0xFF00, bits := 0xAA00 }]

/-- The row test of R87: `(W & mask) = match`. -/
def HeadRow.hits (r : HeadRow) (W : BitVec 16) : Bool := W &&& r.mask = r.bits

/-- The decoder of the received rows, its three steps as R87 gives them; `none` where it waits. -/
def classify (m : DataTypeMask) : List Byte → Option SpanClass
  | [] => none
  | b0 :: rest =>
    if b0 ≠ startByte then some .noStart
    else match rest with
      | [] => none
      | b1 :: _ => ((headRows m).find? (·.hits (headWord b0 b1))).map HeadRow.cls

/-- The decoder: the first span of a byte sequence with its operands (R78, R79), or why it waits. Total: no byte sequence is an error (R81). -/
def decode (c : Config) (B : List Byte) : Decoded :=
  match classify c.mask B with
  | none => .wait (if B = [] then .emptyBuffer else .loneStart)
  | some .noStart => .span (.noStart (B.getD 0 0)) (B.drop 1)
  | some .badType => .span (.badType (B.getD 1 0)) (B.drop 1)
  | some .cmdFrame =>
    if B.length < cmdSize then .wait .shortCommand
    else .span (.cmdFrame ((B.drop 2).take 17) (B.getD 19 0)) (B.drop cmdSize)
  | some .dataFrame =>
    let t := B.getD 1 0
    let L := (typeLen t).toNat
    if B.length < L + overhead then .wait .shortData
    else .span (.dataFrame (typeExt t) (typeRsv t) (identOf (B.getD 2 0) (B.getD 3 0)) ((B.drop 4).take L) (B.getD (L + 4) 0))
      (B.drop (L + overhead))

/-! ### The init command (R181 to R184) -/

/-- `SPEED_CODE(bps)` where `bps` is a key. -/
def SpeedTable.code? (t : SpeedTable) (bps : Bps) : Option Byte :=
  if bps = fallbackBps then some t.code500k else t.others.lookup bps

/-- The speed code with its fallback to 500000 (R181). -/
def speedCode (t : SpeedTable) (bps : Bps) : Byte := (t.code? bps).getD t.code500k

/-- Offsets 2..18 of the init command for code byte `k` (R183). -/
def initBody (k : Byte) : List Byte :=
  [initType, k, 0x01] ++ List.replicate 9 0x00 ++ [0x01] ++ List.replicate 4 0x00

/-- The init command `C[0..19]` (R183) with its checksum (R184). -/
def initCommand (t : SpeedTable) (bps : Bps) : List Byte :=
  let body := initBody (speedCode t bps)
  [startByte, cmdMark] ++ body ++ [checksum body]

/-! ### The encoder -/

/-- The wire bytes that an instruction is read from (R71 to R73).
For BADTYPE they are the head pair, of which the span is the first byte (R76). -/
def encode (c : Config) : Instr → List Byte
  | .noStart b => [b]
  | .badType t => [startByte, t]
  | .cmdFrame body ck => [startByte, cmdMark] ++ body ++ [ck]
  | .dataFrame ext rsv id payload term =>
    [startByte, typeByte ext rsv (BitVec.ofNat 4 payload.length), identLo id, identHi id] ++ payload ++ [term]
  | .initCmd bps => initCommand c.speedCodes bps

/-- The span size: the bytes the instruction consumes (R76, R78). -/
def Instr.size : Instr → Nat
  | .noStart _ => 1
  | .badType _ => 1
  | .cmdFrame body _ => body.length + 3
  | .dataFrame _ _ _ payload _ => payload.length + overhead
  | .initCmd _ => cmdSize

/-- The frame a data-frame span carries (R79). -/
def dataFrameOf (ext : Bool) (id : BitVec 16) (payload : List Byte) : Frame :=
  { identifier := id, length := BitVec.ofNat 4 payload.length, payload := payload, isExtended := ext }

/-- The outcome the reference function gives the span (R100); the generated command is no received span. -/
def Instr.outcome? : Instr → Option SpanOutcome
  | .noStart _ => some .noStart
  | .badType _ => some .badType
  | .cmdFrame body ck => some (.cmd (ck = checksum body))
  | .dataFrame ext _ id payload term =>
    some (if term = termByte then .dataOk (dataFrameOf ext id payload) else .badTerm)
  | .initCmd _ => none

/-! ### Words as the opcode table numbers them -/

/-- The longest span (R78). -/
abbrev longestSpan : Nat := 20

/-- The bytes of `n` bytes' worth of table bits: 16-bit words `W` with the first byte in the upper half (R76),
the first word lowest; a last odd byte stands alone. DESIGN CHOICE beyond 16 bits (log 9). -/
def tableBytesOf : Nat → Nat → List Byte
  | 0, _ => []
  | 1, w => [BitVec.ofNat 8 w]
  | n + 2, w => BitVec.ofNat 8 (w / 256) :: BitVec.ofNat 8 w :: tableBytesOf n (w / 65536)

/-- The table word as wire bytes, every bit above `nbits` zero, up to the longest span. -/
def tableBytes (nbits w : Nat) : List Byte :=
  (tableBytesOf ((nbits + 7) / 8) (w % 2 ^ nbits) ++ List.replicate longestSpan 0).take longestSpan

/-- The instruction the decoder reads from a table word, under the default parameters. -/
def decodeTableWord (nbits w : Nat) : Option Instr :=
  match decode Config.default (tableBytes nbits w) with
  | .span i _ => some i
  | .wait _ => none

end Sys2Proof
end

