-- ==== Sys2Proof/Machine/Ports.lean ====
section
/-! DEFINITION. The output ports (10_state.md R22): functions of the registers, and `cmd` of `speed_bps` alone. -/

namespace Sys2Proof.Machine

/-- The flat port of a byte sequence: byte `i` at bits `[8i+7:8i]` (R55). -/
def packLow (n : Nat) (bytes : List Byte) : BitVec (8 * n) :=
  BitVec.ofNat (8 * n) (bytes.foldr (fun b acc => b.toNat + 256 * acc) 0)

/-- Byte `i` of a flat port (R55). -/
def byteLane {w : Nat} (port : BitVec w) (i : Nat) : Byte := port.extractLsb' (8 * i) 8

namespace State

/-- `in_ready = ~o_valid` (R201). -/
def inReady (s : State) : Bool := !s.out.valid

/-- `out_valid` (R22). -/
def outValid (s : State) : Bool := s.out.valid

/-- `out_id` (R22). -/
def outId (s : State) : BitVec 16 := s.out.id

/-- `out_len` (R22). -/
def outLen (s : State) : BitVec 4 := s.out.len

/-- `out_ext` (R22). -/
def outExt (s : State) : Bool := s.out.ext

/-- `out_payload`, 120 bits (R22). -/
def outPayload (s : State) : BitVec 120 := packLow 15 s.out.pl.toList

/-- `out_ts` (R22), as a number below `2 ^ TS_W`. -/
def outTs (s : State) : Nat := s.out.ts

/-- `evt` (R22). -/
def evtPort (s : State) : BitVec 6 := s.evt

/-- The init command `C` for the speed now on the port (R183). -/
def initBytes (s : State) : List Byte := initCommand s.cfg.speedCodes s.speedBps

/-- `cmd`, 160 bits, combinational in `speed_bps` (R22, R186). -/
def cmdPort (s : State) : BitVec 160 := packLow 20 s.initBytes

/-- The CAN Frame in the output register (R138): meaningful while `o_valid = 1` (R36). -/
def outFrame (s : State) : Frame :=
  { identifier := s.out.id, length := s.out.len, payload := s.out.pl.toList.take s.out.len.toNat, isExtended := s.out.ext }

/-- The same with its `captured_at` (R138). -/
def outCanFrame (s : State) : CanFrame := { frame := s.outFrame, capturedAt := s.out.ts }

end State

end Sys2Proof.Machine
end

