-- ==== Sys2Proof/Machine/Ops.lean ====
section
/-! DEFINITION. The operations the rules share: reset, clear, the two handshakes, `emit`, and the end of a span.
There is no memory (20_memory.md R50), and there is no exception entry or return: the block raises none (60_exceptions.md R230). -/

namespace Sys2Proof.Machine

/-- `st <- HUNT ; pos <- 0`; the working registers keep their values (R135, R136, R162, R204). -/
def ParseRegs.toHunt (p : ParseRegs) : ParseRegs := { p with st := .hunt, pos := 0 }

/-- A payload in the 15 lanes of `o_pl`, unused lanes 0 (R33, D23). -/
def padPayload (payload : List Byte) : PayloadFile := Vector.ofFn fun i => payload.getD i.val 0

/-- `emit(frame)` on the output registers: all the frame's fields and `o_valid` at one edge (R58, R135). -/
def OutRegs.emit (f : Frame) (ts : Nat) : OutRegs :=
  { valid := true, id := f.identifier, len := f.length, ext := f.isExtended, pl := padPayload f.payload, ts := ts }

/-- The output handshake: `o_valid <- 0`, the rest kept (R203). -/
def OutRegs.taken (o : OutRegs) : OutRegs := { o with valid := false }

namespace State

/-- The `ts` input as its `TS_W` wires carry it (R21, log 6). -/
def sampledTs (s : State) : Nat := s.inp.ts % 2 ^ s.cfg.tsW

/-- `emit(frame)` with `o_ts <- ts` at this edge (R135, R207). -/
def emit (f : Frame) (s : State) : State := { s with out := OutRegs.emit f s.sampledTs }

/-- A span ends: `st <- HUNT ; pos <- 0`, and its bytes leave the logical buffer (R24, R52). -/
def endSpan (s : State) : State := { s with parse := s.parse.toHunt, buf := [] }

/-- `rst = 1`: every register takes its reset value, whatever the state (R42, R234, R250). -/
def resetBy (v : PortVector) (s : State) : State :=
  { s with parse := .reset, out := .reset, evt := 0, buf := [], inp := v }

/-- `clear = 1`: the partial span is discarded before the edge's byte (R204). -/
def clearBy (v : PortVector) (s : State) : State := if v.clear then s.endSpan else s

/-- The output transfer: exactly when `o_valid = 1` and `out_ready = 1` (R203). -/
def transfers (v : PortVector) (s : State) : Bool := s.out.valid && v.outReady

/-- The input transfer: exactly when `in_valid = 1` and `in_ready = 1` (R202). -/
def accepts (v : PortVector) (s : State) : Bool := v.inValid && s.inReady

/-- The output transfer's effect (R203). -/
def deliverBy (v : PortVector) (s : State) : State := if s.transfers v then { s with out := s.out.taken } else s

/-- What an edge without `rst` does before its accepted byte: sample the ports, start an empty event vector (R200, R205),
apply `clear` (R204) and the output transfer (R203). -/
def beginEdge (v : PortVector) (s : State) : State :=
  ({ s with inp := v, evt := 0 } : State).clearBy v |>.deliverBy v

end State

end Sys2Proof.Machine
end

