-- ==== Sys2Proof/Machine/InitCommand.lean ====
section
/-! DEFINITION. The init-command generator (43_command_encoder.md R180 to R188). -/

namespace Sys2Proof.Machine

/-- INIT_CMD (R180, R186): `bps` stands on `speed_bps`, so the `cmd` port (`State.cmdPort`) shows its command at once.
No register is written. -/
def execInitCmd (bps : Bps) (s : State) : Host.Outcome State Fault Refusal := .next { s with speedBps := bps }

end Sys2Proof.Machine
end

