-- ==== Sys2Proof/Machine/CommandFrame.lean ====
section
/-! DEFINITION. Command/response frames (42_command_frame.md R160 to R164). -/

namespace Sys2Proof.Machine

/-- Entry on the mark byte 0x55: `st <- CMD ; pos <- 2 ; csum <- 0x00` (R160). -/
def ParseRegs.beginCmd (p : ParseRegs) : ParseRegs := { p with st := .cmd, pos := 2, csum := 0 }

/-- A body byte at offsets 2..18: only the sum is kept (R161). -/
def ParseRegs.bodyByte (b : Byte) (p : ParseRegs) : ParseRegs := { p with csum := p.csum + b, pos := p.pos + 1 }

/-- The `CMD_CKOK` qualifier: `if b = csum: signal(CMD_CKOK)` (R162). -/
def State.signalCkok (ck : Byte) (s : State) : State := if ck = s.parse.csum then s.signal .cmdCkok else s

/-- CMD_FRAME at its last byte (R162): the body is not interpreted (R161), its sum stands in `csum`. -/
def execCmdFrame (_body : List Byte) (ck : Byte) (s : State) : Host.Outcome State Fault Refusal :=
  .next ((s.signal .cmd).signalCkok ck).endSpan

end Sys2Proof.Machine
end

