-- ==== Sys2Proof/Machine/DataFrame.lean ====
section
/-! DEFINITION. Data frames (41_data_frame.md R130 to R140). -/

namespace Sys2Proof.Machine

/-- Offset 1, the type byte: the working registers are loaded or cleared (R131). -/
def ParseRegs.beginData (t : Byte) (p : ParseRegs) : ParseRegs :=
  { p with st := .data, pos := 2, wLen := typeLen t, wExt := typeExt t, wId := 0, wPl := Vector.replicate 15 0 }

/-- Offset 2: `w_id[7:0] <- b` (R132). -/
def ParseRegs.idLow (b : Byte) (p : ParseRegs) : ParseRegs := { p with wId := identHi p.wId ++ b, pos := 3 }

/-- Offset 3: `w_id[15:8] <- b` (R133). -/
def ParseRegs.idHigh (b : Byte) (p : ParseRegs) : ParseRegs := { p with wId := b ++ identLo p.wId, pos := 4 }

/-- Offsets 4 to L+3: `w_pl[pos - 4] <- b` (R134). -/
def ParseRegs.payloadByte (b : Byte) (p : ParseRegs) : ParseRegs :=
  { p with wPl := p.wPl.setIfInBounds (p.pos.toNat - 4) b, pos := p.pos + 1 }

/-- A byte of a data frame before its terminator, by span offset (R132, R133, R134). -/
def ParseRegs.dataByte (b : Byte) (p : ParseRegs) : ParseRegs :=
  if p.pos = 2 then p.idLow b else if p.pos = 3 then p.idHigh b else p.payloadByte b

/-- DATA_FRAME at its last byte. With 0x55 the frame is emitted (DATA_OK, R135); with any other byte the span is discarded
and no output register is written (BADTERM, R136). The operands are what the working registers hold (`State.spanInstr`);
`R` is ignored (R75). -/
def execDataFrame (ext _rsv : Bool) (id : BitVec 16) (payload : List Byte) (term : Byte) (s : State) :
    Host.Outcome State Fault Refusal :=
  if term = termByte then .next ((s.emit (dataFrameOf ext id payload)).signal .dataOk).endSpan
  else .next (s.signal .badTerm).endSpan

end Sys2Proof.Machine
end

