-- ==== Sys2Proof/Machine/Synchronizer.lean ====
section
/-! DEFINITION. The synchronizer (40_synchronizer.md): NOSTART, BADTYPE, and the start byte. -/

namespace Sys2Proof.Machine

/-- `st <- START ; pos <- 1` (R106). -/
def ParseRegs.startSpan (p : ParseRegs) : ParseRegs := { p with st := .start, pos := 1 }

/-- A byte examined as a head, `st = HUNT` (R106): 0xAA starts a span, any other byte is a NOSTART. -/
def State.examineHead (b : Byte) (s : State) : State :=
  if b = startByte then { s with parse := s.parse.startSpan, buf := [b] } else s.signal .noStart

/-- NOSTART (R104, R106): the byte is dropped; `st`, `pos` and every frame register stay. -/
def execNoStart (_b : Byte) (s : State) : Host.Outcome State Fault Refusal := .next (s.signal .noStart)

/-- BADTYPE (R105, R107): the 0xAA is dropped, and `t` becomes the new head, classified afresh in the same step. -/
def execBadType (t : Byte) (s : State) : Host.Outcome State Fault Refusal :=
  .next ((s.signal .badType).endSpan.examineHead t)

end Sys2Proof.Machine
end

