-- ==== Sys2Proof/Machine/Operands.lean ====
section
/-! DEFINITION. Operand assembly: which instruction's span an accepted byte completes, its operands read from the parse
registers, and the byte rules of a span that is not complete (44_stream_interface.md R200). -/

namespace Sys2Proof.Machine

/-- The payload received so far as the operand of the frame: `w_pl[0..w_len-1]` (R135). -/
def ParseRegs.payload (p : ParseRegs) : List Byte := p.wPl.toList.take p.wLen.toNat

/-- The instruction whose span the byte `b` completes, by the one rule whose condition holds for `(st, pos, b)` (R200):
R106, R107, R135 and R136, R162. Its operands are the working registers; the two that the hardware does not keep (the
command body, and the ignored bit `R`) are read from the logical buffer. `none`: the byte completes no span. -/
def State.spanInstr (b : Byte) (s : State) : Option Instr :=
  match s.parse.st with
  | .hunt => if b = startByte then none else some (.noStart b)
  | .start => if b = cmdMark || dataClass s.cfg.mask b then none else some (.badType b)
  | .cmd => if s.parse.pos = 19 then some (.cmdFrame (s.buf.drop 2) b) else none
  | .data =>
    if s.parse.pos.toNat = s.parse.wLen.toNat + 4 then
      some (.dataFrame s.parse.wExt (typeRsv (s.buf.getD 1 0)) s.parse.wId s.parse.payload b)
    else none

/-- The rule for an accepted byte that completes no span: R106 (0xAA), R160 or R131, R161, R132 to R134. -/
def ParseRegs.advance (b : Byte) (p : ParseRegs) : ParseRegs :=
  match p.st with
  | .hunt => p.startSpan
  | .start => if b = cmdMark then p.beginCmd else p.beginData b
  | .cmd => p.bodyByte b
  | .data => p.dataByte b

/-- The whole effect of such a byte: the parse registers move and the logical buffer keeps the byte; nothing is signalled (R108). -/
def State.acceptPrefix (b : Byte) (s : State) : State :=
  { s with parse := s.parse.advance b, buf := s.buf ++ [b] }

end Sys2Proof.Machine
end

