-- ==== Sys2Proof/Machine/Represent.lean ====
section
/-! DEFINITION. The abstraction relation `Rep` (20_memory.md R52) and the invariants of 10_state.md R37. -/

namespace Sys2Proof.Machine

/-- `Rep` in `CMD` (R52). -/
abbrev ParseRegs.RepCmd (p : ParseRegs) (B : List Byte) : Prop :=
  B.length = p.pos.toNat ∧ 2 ≤ p.pos.toNat ∧ p.pos.toNat ≤ 19 ∧
  B.getD 0 0 = startByte ∧ B.getD 1 0 = cmdMark ∧ p.csum = checksum (B.drop 2)

/-- `Rep` in `DATA` (R52). -/
abbrev ParseRegs.RepData (m : DataTypeMask) (p : ParseRegs) (B : List Byte) : Prop :=
  B.length = p.pos.toNat ∧ 2 ≤ p.pos.toNat ∧ p.pos.toNat ≤ p.wLen.toNat + 4 ∧
  B.getD 0 0 = startByte ∧ dataClass m (B.getD 1 0) = true ∧
  p.wLen = typeLen (B.getD 1 0) ∧ p.wExt = typeExt (B.getD 1 0) ∧
  (3 ≤ p.pos.toNat → identLo p.wId = B.getD 2 0) ∧
  (4 ≤ p.pos.toNat → identHi p.wId = B.getD 3 0) ∧
  ∀ i : Fin 15, p.wPl[i] = if 4 + i.val < p.pos.toNat then B.getD (4 + i.val) 0 else 0

/-- `Rep(hw, B)` (R52). -/
def ParseRegs.rep (m : DataTypeMask) (p : ParseRegs) (B : List Byte) : Bool :=
  match p.st with
  | .hunt => decide (B = [])
  | .start => decide (B = [startByte])
  | .cmd => decide (p.RepCmd B)
  | .data => decide (p.RepData m B)

/-- The invariants of R37 on the parse registers; its last line, `o_valid = 1 ⇒ in_ready = 0`, is the definition of `in_ready` (R201). -/
def ParseRegs.legal (p : ParseRegs) : Bool :=
  match p.st with
  | .hunt => decide (p.pos = 0)
  | .start => decide (p.pos = 1)
  | .cmd => decide (2 ≤ p.pos.toNat ∧ p.pos.toNat ≤ 19)
  | .data => decide (2 ≤ p.pos.toNat ∧ p.pos.toNat ≤ p.wLen.toNat + 4 ∧
      ∀ i : Fin 15, (p.wLen.toNat ≤ i.val ∨ p.pos.toNat ≤ 4 + i.val) → p.wPl[i] = 0)

/-- R37 holds and the parse registers represent the logical buffer (R52): what every state after a reset satisfies (R112). -/
def State.coherent (s : State) : Bool := s.parse.legal && s.parse.rep s.cfg.mask s.buf

end Sys2Proof.Machine
end

