-- ==== Sys2Proof/Machine/Edge.lean ====
section
/-! DEFINITION. One clock edge (44_stream_interface.md R200) up to the instruction it runs, the environment's other move,
and the loading of a span for the host. -/

namespace Sys2Proof.Machine

/-- What the head of the stimulus comes to: settled without an instruction, an instruction to run, or no specified next state. -/
inductive Fetch where
  | settled (s : State)
  | run (i : Instr) (s : State)
  | stuck
deriving DecidableEq, Repr

namespace State

/-- An accepted byte, after `beginEdge`: the instruction it completes, or the rule of a span that goes on (R200). -/
def acceptByte (b : Byte) (s : State) : Fetch :=
  match s.spanInstr b with
  | some i => .run i s
  | none => .settled (s.acceptPrefix b)

/-- One rising edge (R200): `rst` first (R234), then `clear`, the output transfer and the accepted byte.
A state outside R37 has no specified next state (log 5). -/
def edge (v : PortVector) (s : State) : Fetch :=
  if v.rst then .settled (s.resetBy v)
  else if s.coherent then
    if s.accepts v then (s.beginEdge v).acceptByte v.inData else .settled (s.beginEdge v)
  else .stuck

/-- The next move: the head of the stimulus; an idle edge when none is left (log 2). -/
def fetch (s : State) : Fetch :=
  match s.pending with
  | [] => s.edge .idle
  | .edge v :: rest => ({ s with pending := rest } : State).edge v
  | .drive bps :: rest => .run (.initCmd bps) { s with pending := rest }

/-- The edge that offers one byte, with nothing else asserted. -/
def offerEdge (b : Byte) : Stimulus := .edge { PortVector.idle with inValid := true, inData := b }

/-- How many bytes decide the first span of a byte sequence (R76). -/
def decidingBytes (c : Config) (bytes : List Byte) : Nat :=
  match decode c bytes with
  | .span i _ => (encode c i).length
  | .wait _ => bytes.length

/-- `s` with all but the deciding byte of the span received from an empty buffer, the output register free, and the deciding
byte offered at the next edge (log 10). -/
def loadSpan (bytes : List Byte) (s : State) : State :=
  let n := decidingBytes s.cfg bytes
  let front := bytes.take (n - 1)
  { s with
    parse := front.foldl (fun p b => p.advance b) s.parse.toHunt
    buf := front
    out := s.out.taken
    pending := offerEdge (bytes.getD (n - 1) 0) :: s.pending }

end State

end Sys2Proof.Machine
end

