-- ==== Sys2Proof/Machine/Dispatch.lean ====
section
/-! DEFINITION. The meaning of each instruction: one arm per constructor of `Instr`. -/

namespace Sys2Proof.Machine

def exec (i : Instr) (s : State) : Host.Outcome State Fault Refusal :=
  match i with
  | .noStart b => Sys2Proof.Machine.execNoStart b s
  | .badType t => Sys2Proof.Machine.execBadType t s
  | .cmdFrame body ck => Sys2Proof.Machine.execCmdFrame body ck s
  | .dataFrame ext rsv id payload term => Sys2Proof.Machine.execDataFrame ext rsv id payload term s
  | .initCmd bps => Sys2Proof.Machine.execInitCmd bps s

end Sys2Proof.Machine
end

