-- ==== Sys2Proof/Machine/Step.lean ====
section
/-! DEFINITION. One step: one clock edge (44_stream_interface.md R200) or one change of `speed_bps` (R186). -/

namespace Sys2Proof.Machine

/-- One step: fetch the head of the stimulus, and run the instruction its byte completes. -/
def step (s : State) : Host.Outcome State Fault Refusal :=
  match s.fetch with
  | .settled t => .next t
  | .run i t => exec i t
  | .stuck => .fault .stuck

/-- `s` with the instruction of a table word placed so that the very next step runs it (log 10). -/
def State.withFetchWord (s : State) (nbits w : Nat) : State := s.loadSpan (tableBytes nbits w)

end Sys2Proof.Machine
end

