-- ==== Sys2Proof/Machine/Stimulus.lean ====
section
/-! DEFINITION. The stimulus notation of 30_encoding.md R85 and R86: byte programs, cycle programs and pseudo-instructions. -/

namespace Sys2Proof.Machine

/-- `DF id= ext= [..]` (R86). -/
def pseudoDF (c : Config) (id : BitVec 16) (ext : Bool) (d : List Byte) : List Byte :=
  encode c (.dataFrame ext false id d termByte)

/-- `DFT id= ext= [..] term=` (R86). -/
def pseudoDFT (c : Config) (id : BitVec 16) (ext : Bool) (d : List Byte) (term : Byte) : List Byte :=
  encode c (.dataFrame ext false id d term)

/-- `CF [b2 .. b18]`: a command/response frame with a correct checksum (R86). -/
def pseudoCF (c : Config) (body : List Byte) : List Byte := encode c (.cmdFrame body (checksum body))

/-- `INIT <bps>` (R86). -/
def pseudoINIT (c : Config) (bps : Bps) : List Byte := encode c (.initCmd bps)

/-- `NOISE b` (R86). -/
def pseudoNOISE (b : Byte) : List Byte := [b]

/-- A cycle program: one port vector per clock cycle (R85). -/
def cycleProgram (rows : List PortVector) : List Stimulus := rows.map .edge

/-- A byte program offered one byte a cycle, the consumer's `out_ready` and the time given (R85). -/
def byteProgram (outReady : Bool) (ts : Nat) (bytes : List Byte) : List PortVector :=
  bytes.map fun b => { PortVector.idle with inValid := true, inData := b, outReady := outReady, ts := ts }

end Sys2Proof.Machine
end

