-- ==== Sys2Proof/Safety.lean ====
section
/-! DEFINITION. What a safe run is: the invariant of every reachable state, and the run with its observation
(44_stream_interface.md R210). -/

namespace Sys2Proof.Machine

/-- Unused payload lanes of the output register are 0 (R33). -/
abbrev OutRegs.lanesClear (o : OutRegs) : Prop := ∀ i : Fin 15, o.len.toNat ≤ i.val → o.pl[i] = 0

/-- The event vectors one edge can leave (R206, R235): no outcome, one outcome, or BADTYPE with NOSTART; `CMD_CKOK` only with `CMD`. -/
abbrev evtLegal (e : BitVec 6) : Prop := e ∈ [0x00, 0x01, 0x02, 0x03, 0x04, 0x0C, 0x10, 0x20]

/-- The invariant: R37 and `Rep` (R52), legal parameters (R7), `o_ts` within its `TS_W` bits (R34), the unused output lanes
(R33), and the event vectors (R206). -/
structure State.Inv (s : State) : Prop where
  coherent : s.coherent = true
  legalCfg : s.cfg.legal
  tsFits   : s.out.ts < 2 ^ s.cfg.tsW
  lanes    : s.out.lanesClear
  events   : evtLegal s.evt

/-- The frame held at the output, if any (R210). -/
def State.held (s : State) : List CanFrame := if s.out.valid then [s.outCanFrame] else []

/-- The outcomes an edge signalled, in stream order: BADTYPE before NOSTART (R112, R206); the frame of DATA_OK is the emitted one. -/
def State.signalled (s : State) : List SpanOutcome :=
  (if s.signals .badType then [.badType] else []) ++
  (if s.signals .noStart then [.noStart] else []) ++
  (if s.signals .cmd then [.cmd (s.signals .cmdCkok)] else []) ++
  (if s.signals .dataOk then [.dataOk s.outFrame] else []) ++
  (if s.signals .badTerm then [.badTerm] else [])

/-- One clock edge of the machine with the given ports. -/
def State.tick (v : PortVector) (s : State) : Host.Outcome State Fault Refusal := step { s with pending := [.edge v] }

/-- A run and what it shows: the four parts of R210 (`transferred`, `final.held`, `evts`, `final.parse`), and with them the
outcomes signalled, the bytes accepted, as one sequence for each stretch between clears (R211), and the `ts` sample of each
edge that signalled DATA_OK (R207). -/
structure Obs where
  transferred : List CanFrame
  evts        : List (BitVec 6)
  outs        : List SpanOutcome
  segments    : List (List Byte)
  stamps      : List Nat
  final       : State

/-- Puts an accepted byte at the front of the first stretch. -/
def pushByte (b : Byte) : List (List Byte) → List (List Byte)
  | [] => [[b]]
  | S :: rest => (b :: S) :: rest

/-- The observation after one edge `v` from `s` to `t`, in front of what the rest of the run shows. -/
def Obs.after (v : PortVector) (s t : State) (o : Obs) : Obs :=
  let segs := if !v.rst && s.accepts v then pushByte v.inData o.segments else o.segments
  { transferred := (if !v.rst && s.transfers v then [s.outCanFrame] else []) ++ o.transferred
    evts := t.evt :: o.evts
    outs := t.signalled ++ o.outs
    segments := if v.rst || v.clear then [] :: segs else segs
    stamps := (if t.signals .dataOk then [v.ts % 2 ^ s.cfg.tsW] else []) ++ o.stamps
    final := o.final }

/-- The run over a finite sequence of port vectors, one per cycle (R210); `none` where the machine stops. -/
def State.observe : List PortVector → State → Option Obs
  | [], s => some { transferred := [], evts := [], outs := [], segments := [[]], stamps := [], final := s }
  | v :: vs, s =>
    match s.tick v with
    | .next t => (State.observe vs t).map (Obs.after v s t)
    | .fault _ => none
    | .refused _ => none

/-- A byte source that keeps its duty: it offers each byte until an edge accepts it (R209), with the given `out_ready` and `ts` in each cycle. -/
def State.runHolding : List (Bool × Nat) → List Byte → State → Option Obs
  | [], _, s => some { transferred := [], evts := [], outs := [], segments := [[]], stamps := [], final := s }
  | (r, now) :: cycles, bytes, s =>
    let v : PortVector := { PortVector.idle with inValid := !bytes.isEmpty, inData := bytes.getD 0 0, outReady := r, ts := now }
    match s.tick v with
    | .next t => (State.runHolding cycles (if s.accepts v then bytes.drop 1 else bytes) t).map (Obs.after v s t)
    | .fault _ => none
    | .refused _ => none

/-- The bytes an observed run accepted, over all stretches. -/
def Obs.accepted (o : Obs) : List Byte := o.segments.flatten

/-- The stimulus holds no reset. -/
def noReset (vs : List PortVector) : Prop := ∀ v ∈ vs, v.rst = false

/-- The stimulus holds no clear. -/
def noClear (vs : List PortVector) : Prop := ∀ v ∈ vs, v.clear = false

/-- `s` with the edge `v` as its next move, and `rest` after it. -/
def State.atEdge (v : PortVector) (rest : List Stimulus) (s : State) : State := { s with pending := .edge v :: rest }

/-- The edge `v` runs the byte rules on a state: no reset, a state inside R37, and a byte accepted (R202). -/
abbrev State.readyFor (v : PortVector) (s : State) : Prop :=
  v.rst = false ∧ s.coherent = true ∧ v.inValid = true ∧ s.out.valid = false

/-- The reset state of a block with other parameters. -/
def State.resetWith (c : Config) : State := { State.reset with cfg := c }

/-- The logical buffer an edge's byte is appended to: emptied by `clear` (R204). -/
def State.bufAt (v : PortVector) (s : State) : List Byte := if v.clear then [] else s.buf

/-- The vectors offer exactly these bytes, one at each edge, with no reset and no clear; `out_ready` and `ts` are free. -/
def offersBytes (vs : List PortVector) (bytes : List Byte) : Prop :=
  vs.map PortVector.inData = bytes ∧ ∀ v ∈ vs, v.rst = false ∧ v.clear = false ∧ v.inValid = true

/-- A safe run: `n` steps of the machine never stop (R230). -/
def State.runsSafely (n : Nat) (s : State) : Prop := ∃ t, Host.Core.run Sys2Proof.core n s = .next t

end Sys2Proof.Machine
end

