-- ==== Sys2Proof/Certificates/Slice0/Obligations.lean ====
section
/-! DEFINITION. The statements for the provers, from the numbered rules of spec/. Each docstring names its rules. -/

open Sys2Proof Sys2Proof.Machine

/-! ### Reset -/

/-- R42: after an edge with `rst = 1`, every register holds the value of the table, whatever the state and the other inputs.
Parameters and the `speed_bps` port are no registers and stay. -/
def Obligations.ResetEdgeSetsEveryRegister : Prop :=
  ∀ (s : State) (v : PortVector) (rest : List Stimulus), v.rst = true →
    ∃ t, step (s.atEdge v rest) = .next t ∧
      t.parse.st = .hunt ∧ t.parse.pos = 0 ∧ t.parse.wLen = 0 ∧ t.parse.wExt = false ∧ t.parse.wId = 0 ∧
      (∀ i : Fin 15, t.parse.wPl[i] = 0) ∧ t.parse.csum = 0 ∧
      t.out.valid = false ∧ t.out.id = 0 ∧ t.out.len = 0 ∧ t.out.ext = false ∧ (∀ i : Fin 15, t.out.pl[i] = 0) ∧
      t.out.ts = 0 ∧ t.evt = 0 ∧ t.buf = [] ∧ t.cfg = s.cfg ∧ t.speedBps = s.speedBps ∧ t.pending = rest

/-- The invariant holds in the reset state, under the default parameters and under any legal ones. -/
def Obligations.InvariantHoldsAtReset : Prop :=
  State.reset.Inv ∧ ∀ c : Config, c.legal → (State.resetWith c).Inv

/-! ### What each instruction does: completion and result -/

/-- R104, R106: NOSTART signals evt[0] and writes nothing else, for every state and every byte but 0xAA. -/
def Obligations.NoStartSignalsAndDrops : Prop :=
  ∀ (b : Byte) (s : State), b ≠ 0xAA → exec (.noStart b) s = .next { s with evt := s.evt ||| 0x01 }

/-- R105, R107: BADTYPE signals evt[1]; the second byte becomes the head: 0xAA leaves `(START, 1)`, any other byte is also a
NOSTART and leaves `(HUNT, 0)`. Nothing but `st`, `pos`, `evt_r` (and the logical buffer) is written. -/
def Obligations.BadTypeReexaminesItsSecondByte : Prop :=
  ∀ (m : DataTypeMask) (t : Byte) (s : State), t ≠ 0x55 → dataClass m t = false →
    exec (.badType t) s = .next (if t = 0xAA
      then { s with evt := s.evt ||| 0x02, parse := { s.parse with st := .start, pos := 1 }, buf := [0xAA] }
      else { s with evt := s.evt ||| 0x03, parse := { s.parse with st := .hunt, pos := 0 }, buf := [] })

/-- R162: CMD_FRAME signals CMD, and CMD_CKOK exactly when its last byte equals `csum`; it returns to `(HUNT, 0)` and writes
no output register (R164). -/
def Obligations.CommandFrameSignalsAndEmitsNothing : Prop :=
  ∀ (body : List Byte) (ck : Byte) (s : State),
    exec (.cmdFrame body ck) s = .next { s with
      evt := s.evt ||| (if ck = s.parse.csum then 0x0C else 0x04)
      parse := { s.parse with st := .hunt, pos := 0 }
      buf := [] }

/-- R130, R135, R138: DATA_FRAME with terminator 0x55 emits the frame of its operands with `captured_at` the sampled `ts`,
unused payload lanes 0 (R33), and signals DATA_OK; it holds for every payload up to 15 bytes and both values of `X` and `R`. -/
def Obligations.DataFrameEmitsItsFrame : Prop :=
  ∀ (ext rsv : Bool) (id : BitVec 16) (payload : List Byte) (s : State), payload.length ≤ 15 →
    ∃ t, exec (.dataFrame ext rsv id payload 0x55) s = .next t ∧
      t.out.valid = true ∧ t.out.id = id ∧ t.out.len.toNat = payload.length ∧ t.out.ext = ext ∧
      (∀ i : Fin 15, t.out.pl[i] = payload.getD i.val 0) ∧ t.out.ts = s.inp.ts % 2 ^ s.cfg.tsW ∧
      t.outFrame = { identifier := id, length := BitVec.ofNat 4 payload.length, payload := payload, isExtended := ext } ∧
      t.evt = s.evt ||| 0x10 ∧ t.parse = { s.parse with st := .hunt, pos := 0 } ∧ t.buf = []

/-- R136: DATA_FRAME with any other terminator signals BADTERM, drops the span and writes no output register. -/
def Obligations.DataFrameWithBadTerminatorIsDropped : Prop :=
  ∀ (ext rsv : Bool) (id : BitVec 16) (payload : List Byte) (term : Byte) (s : State), term ≠ 0x55 →
    exec (.dataFrame ext rsv id payload term) s = .next { s with
      evt := s.evt ||| 0x20
      parse := { s.parse with st := .hunt, pos := 0 }
      buf := [] }

/-- R180, R186: INIT_CMD completes in every state for every speed, writes no register, and the `cmd` port shows at once the 20
bytes of R183 in the lanes of R55. That `exec` of INIT_CMD moves the `speed_bps` port is the model's choice (log 11): R20 gives the
generator no step. -/
def Obligations.InitCommandShowsOnTheCmdPort : Prop :=
  ∀ (bps : Bps) (s : State), ∃ t, exec (.initCmd bps) s = .next t ∧ t = { s with speedBps := bps } ∧
    t.initBytes.length = 20 ∧
    ∀ i, i < 20 → byteLane t.cmdPort i = (initCommand s.cfg.speedCodes bps).getD i 0

/-- The frame of every instruction: whichever runs, the working registers, the parameters, the sampled ports and the stimulus
stay; only a DATA_FRAME with terminator 0x55 writes the output registers (R104, R105, R136, R162, R164, R186, R204's note on
`w_*`); only INIT_CMD changes `speed_bps` (the model's choice, log 11), and it changes nothing else. There is no memory (R50). -/
def Obligations.InstructionsLeaveTheRestUnchanged : Prop :=
  ∀ (i : Instr) (s t : State), exec i s = .next t →
    t.parse.wLen = s.parse.wLen ∧ t.parse.wExt = s.parse.wExt ∧ t.parse.wId = s.parse.wId ∧ t.parse.wPl = s.parse.wPl ∧
    t.parse.csum = s.parse.csum ∧ t.cfg = s.cfg ∧ t.inp = s.inp ∧ t.pending = s.pending ∧
    (i.received = true → t.speedBps = s.speedBps) ∧
    (i.received = false → t.parse = s.parse ∧ t.out = s.out ∧ t.evt = s.evt ∧ t.buf = s.buf) ∧
    ((∀ ext rsv id payload, i ≠ .dataFrame ext rsv id payload 0x55) → t.out = s.out)

/-! ### The byte rules at a clock edge -/

/-- R106: a byte accepted in `HUNT`. 0xAA gives `(START, 1)`; any other byte signals NOSTART; no other register is written. -/
def Obligations.HuntByteRule : Prop :=
  ∀ (s : State) (v : PortVector) (rest : List Stimulus), s.readyFor v → v.clear = false → s.parse.st = .hunt →
    step (s.atEdge v rest) = .next (if v.inData = 0xAA
      then { s with inp := v, pending := rest, evt := 0, parse := { s.parse with st := .start, pos := 1 }, buf := [0xAA] }
      else { s with inp := v, pending := rest, evt := 0x01 })

/-- R107 with R160's entry and R131: a byte accepted in `START` opens a command frame, opens a data frame (loading `w_len`,
`w_ext`, clearing `w_id`, `w_pl`), or is a bad type. -/
def Obligations.StartByteRule : Prop :=
  ∀ (s : State) (v : PortVector) (rest : List Stimulus), s.readyFor v → v.clear = false → s.parse.st = .start →
    step (s.atEdge v rest) = .next (
      if v.inData = 0x55 then
        { s with inp := v, pending := rest, evt := 0, parse := { s.parse with st := .cmd, pos := 2, csum := 0 }, buf := [0xAA, 0x55] }
      else if v.inData &&& s.cfg.mask.bits = 0xC0 then
        { s with inp := v, pending := rest, evt := 0, buf := [0xAA, v.inData], parse := { s.parse with
            st := .data, pos := 2, wLen := v.inData.extractLsb' 0 4, wExt := v.inData.getLsbD 5, wId := 0
            wPl := Vector.replicate 15 0 } }
      else if v.inData = 0xAA then { s with inp := v, pending := rest, evt := 0x02 }
      else { s with inp := v, pending := rest, evt := 0x03, parse := { s.parse with st := .hunt, pos := 0 }, buf := [] })

/-- R132, R133, R134: the identifier bytes and the payload bytes of a data frame. -/
def Obligations.DataByteRules : Prop :=
  ∀ (s : State) (v : PortVector) (rest : List Stimulus), s.readyFor v → v.clear = false → s.parse.st = .data →
    s.parse.pos.toNat < s.parse.wLen.toNat + 4 →
    step (s.atEdge v rest) = .next { s with
      inp := v, pending := rest, evt := 0, buf := s.buf ++ [v.inData]
      parse :=
        if s.parse.pos = 2 then
          { s.parse with pos := 3, wId := (s.parse.wId &&& 0xFF00) ||| v.inData.zeroExtend 16 }
        else if s.parse.pos = 3 then
          { s.parse with pos := 4, wId := (s.parse.wId &&& 0x00FF) ||| (v.inData.zeroExtend 16 <<< 8) }
        else
          { s.parse with pos := s.parse.pos + 1, wPl := s.parse.wPl.setIfInBounds (s.parse.pos.toNat - 4) v.inData } }

/-- R135: the terminator 0x55 emits the working registers, all fields and `o_valid` at one edge, with `o_ts <- ts`; and an edge
that signals DATA_OK finds `o_valid = 0`, so no undelivered frame is overwritten. -/
def Obligations.GoodTerminatorEmits : Prop :=
  (∀ (s : State) (v : PortVector) (rest : List Stimulus), s.readyFor v → v.clear = false → s.parse.st = .data →
    s.parse.pos.toNat = s.parse.wLen.toNat + 4 → v.inData = 0x55 →
    step (s.atEdge v rest) = .next { s with
      inp := v, pending := rest, evt := 0x10, buf := [], parse := { s.parse with st := .hunt, pos := 0 }
      out := { valid := true, id := s.parse.wId, len := s.parse.wLen, ext := s.parse.wExt, pl := s.parse.wPl
               ts := v.ts % 2 ^ s.cfg.tsW } }) ∧
  (∀ (s t : State) (v : PortVector) (rest : List Stimulus), step (s.atEdge v rest) = .next t →
    t.signals .dataOk = true → s.out.valid = false)

/-- R136: a terminator other than 0x55 signals BADTERM; no output register is written and `w_*` keep their values. -/
def Obligations.BadTerminatorDropsTheSpan : Prop :=
  ∀ (s : State) (v : PortVector) (rest : List Stimulus), s.readyFor v → v.clear = false → s.parse.st = .data →
    s.parse.pos.toNat = s.parse.wLen.toNat + 4 → v.inData ≠ 0x55 →
    step (s.atEdge v rest) = .next { s with
      inp := v, pending := rest, evt := 0x20, buf := [], parse := { s.parse with st := .hunt, pos := 0 } }

/-- R161, R162: the bytes of a command/response frame: sum and count up to offset 18, then CMD and, when the byte equals
`csum`, CMD_CKOK. -/
def Obligations.CommandByteRules : Prop :=
  ∀ (s : State) (v : PortVector) (rest : List Stimulus), s.readyFor v → v.clear = false → s.parse.st = .cmd →
    step (s.atEdge v rest) = .next (
      if s.parse.pos.toNat < 19 then
        { s with inp := v, pending := rest, evt := 0, buf := s.buf ++ [v.inData]
                 parse := { s.parse with csum := s.parse.csum + v.inData, pos := s.parse.pos + 1 } }
      else
        { s with inp := v, pending := rest, evt := if v.inData = s.parse.csum then 0x0C else 0x04, buf := []
                 parse := { s.parse with st := .hunt, pos := 0 } })

/-! ### The stream interface -/

/-- A step runs the decoded instruction: when the logical buffer with the accepted byte decodes to an instruction, the step is
`exec` of it in the state in which the ports are sampled, `clear` is applied and the event vector is empty (R200). A change of
`speed_bps` runs INIT_CMD (the model's choice of a move for it, log 11). -/
def Obligations.StepRunsTheDecodedInstruction : Prop :=
  (∀ (s : State) (v : PortVector) (rest : List Stimulus) (i : Instr) (tail : List Byte), s.readyFor v →
    decode s.cfg (s.bufAt v ++ [v.inData]) = .span i tail →
    step (s.atEdge v rest) = exec i { s with
      inp := v, pending := rest, evt := 0, buf := s.bufAt v
      parse := if v.clear then { s.parse with st := .hunt, pos := 0 } else s.parse }) ∧
  (∀ (s : State) (bps : Bps) (rest : List Stimulus),
    step { s with pending := .drive bps :: rest } = exec (.initCmd bps) { s with pending := rest })

/-- R108: an accepted byte that completes no span signals nothing, is kept in the logical buffer, and touches no output register. -/
def Obligations.UndecidedByteIsKeptSilently : Prop :=
  ∀ (s : State) (v : PortVector) (rest : List Stimulus) (why : WaitReason), s.readyFor v →
    decode s.cfg (s.bufAt v ++ [v.inData]) = .wait why →
    ∃ t, step (s.atEdge v rest) = .next t ∧ t.evt = 0 ∧ t.buf = s.bufAt v ++ [v.inData] ∧ t.out = s.out ∧ t.cfg = s.cfg ∧
      t.speedBps = s.speedBps ∧ t.pending = rest ∧ t.coherent = true

/-- R204: at an edge with `clear = 1` the partial span goes without any event, `w_*` and `csum` keep their values, the output
register is not affected by it (a waiting frame is still delivered by `out_ready`), and a byte accepted at the edge is the
first byte of the new buffer. -/
def Obligations.ClearDiscardsOnlyThePartialSpan : Prop :=
  ∀ (s : State) (v : PortVector) (rest : List Stimulus), v.rst = false → s.coherent = true → v.clear = true →
    step (s.atEdge v rest) = .next (
      if v.inValid = true ∧ s.out.valid = false then
        if v.inData = 0xAA then
          { s with inp := v, pending := rest, evt := 0, parse := { s.parse with st := .start, pos := 1 }, buf := [0xAA] }
        else { s with inp := v, pending := rest, evt := 0x01, parse := { s.parse with st := .hunt, pos := 0 }, buf := [] }
      else
        { s with inp := v, pending := rest, evt := 0, parse := { s.parse with st := .hunt, pos := 0 }, buf := []
                 out := { s.out with valid := s.out.valid && !v.outReady } })

/-- R201, R203, R255: while the output register is full no byte is accepted, whatever is offered; `out_ready` takes the frame
(`o_valid <- 0`, the rest kept), otherwise it stays. -/
def Obligations.FullOutputStallsAndTransfers : Prop :=
  ∀ (s : State) (v : PortVector) (rest : List Stimulus), v.rst = false → v.clear = false → s.coherent = true →
    s.out.valid = true →
    s.inReady = false ∧
    step (s.atEdge v rest) = .next { s with
      inp := v, pending := rest, evt := 0, out := { s.out with valid := !v.outReady } }

/-- R240: with `in_valid = 0` and nothing to deliver, every register but `evt_r` stays, and `evt_r` is written 0. The second
clause is the model's choice of log 2: with no stimulus left the environment is idle, so the step is such an edge. -/
def Obligations.IdleEdgeOnlyClearsEvents : Prop :=
  (∀ (s : State) (v : PortVector) (rest : List Stimulus), v.rst = false → v.clear = false → s.coherent = true →
    v.inValid = false → (s.out.valid = false ∨ v.outReady = false) →
    step (s.atEdge v rest) = .next { s with inp := v, pending := rest, evt := 0 }) ∧
  (∀ s : State, s.coherent = true → s.pending = [] → step s = .next { s with inp := .idle, evt := 0 })

/-- R205, R206, R235: an edge signals nothing when no byte is accepted or the byte completes no span, at most one outcome
otherwise, but for BADTYPE then NOSTART; and that pair comes exactly from a byte in `START` that is neither 0xAA, 0x55 nor data class. -/
def Obligations.OneEdgeSignalsOneOutcomeOrTheBadTypePair : Prop :=
  ∀ (s t : State) (v : PortVector) (rest : List Stimulus), v.rst = false → step (s.atEdge v rest) = .next t →
    evtLegal t.evt ∧ t.evt = evtOf t.signalled ∧
    (s.accepts v = false → t.evt = 0) ∧
    (s.accepts v = true → (∃ why, decode s.cfg (s.bufAt v ++ [v.inData]) = .wait why) → t.evt = 0) ∧
    (t.signalled.length ≤ 1 ∨ t.signalled = [.badType, .noStart]) ∧
    (t.signalled = [.badType, .noStart] ↔
      s.accepts v = true ∧ v.clear = false ∧ s.parse.st = .start ∧ v.inData ≠ 0xAA ∧ v.inData ≠ 0x55 ∧
      dataClass s.cfg.mask v.inData = false)

/-- R256, R207, R135: outside a reset edge the frame fields of the output register change only at a step that signals DATA_OK,
and such an edge finds the register empty; so a waiting frame is never overwritten. -/
def Obligations.OutputChangesOnlyWhenEmitting : Prop :=
  ∀ (s t : State) (v : PortVector) (rest : List Stimulus), v.rst = false → step (s.atEdge v rest) = .next t →
    (t.signals .dataOk = false → t.out = { s.out with valid := s.out.valid && !v.outReady }) ∧
    (t.signals .dataOk = true → s.out.valid = false ∧ t.out.valid = true ∧ t.out.ts = v.ts % 2 ^ s.cfg.tsW)

/-- R7, R39, R65: no step changes a parameter. -/
def Obligations.ParametersNeverChange : Prop :=
  ∀ s t : State, step s = .next t → t.cfg = s.cfg

/-- R186, V-I11: `cmd` depends on `speed_bps` and `SPEED_CODE` alone (so it changes at once with `speed_bps`), and no clock edge
changes it, a reset or clear edge included (D17). The second clause, that a change of `speed_bps` is a step of its own, is the
model's choice (log 11), since R20 gives the generator no step; that it writes no register is R186's. -/
def Obligations.CmdPortFollowsSpeedAlone : Prop :=
  (∀ s t : State, s.cfg.speedCodes = t.cfg.speedCodes → s.speedBps = t.speedBps → s.cmdPort = t.cmdPort) ∧
  (∀ (s : State) (bps : Bps) (rest : List Stimulus),
    step { s with pending := .drive bps :: rest } = .next { s with speedBps := bps, pending := rest }) ∧
  (∀ (s t : State) (v : PortVector) (rest : List Stimulus), step (s.atEdge v rest) = .next t → t.cmdPort = s.cmdPort)

/-- R55, R22: the flat ports carry byte `i` in bits `[8i+7:8i]`. -/
def Obligations.FlatPortsPlaceByteIInLaneI : Prop :=
  ∀ s : State, (∀ i : Fin 15, byteLane s.outPayload i.val = s.out.pl[i]) ∧
    (∀ i : Fin 20, byteLane s.cmdPort i.val = s.initBytes.getD i.val 0)

/-- R75, R137 item 7: bit `T[4]` of a data-class type byte is ignored: under mask 0xC0 two type bytes that differ in it leave
the same registers. -/
def Obligations.TypeBitFourIsIgnored : Prop :=
  ∀ (s : State) (v : PortVector) (rest : List Stimulus), s.readyFor v → v.clear = false → s.parse.st = .start →
    s.cfg.mask = .c0 → dataClass .c0 v.inData = true →
    ∃ t t', step (s.atEdge v rest) = .next t ∧ step (s.atEdge { v with inData := v.inData ^^^ 0x10 } rest) = .next t' ∧
      t'.parse = t.parse ∧ t'.out = t.out ∧ t'.evt = t.evt

/-! ### The invariant -/

/-- Every step keeps the invariant: from every state that meets it, not only along runs from reset. -/
def Obligations.StepKeepsTheInvariant : Prop :=
  ∀ s t : State, s.Inv → step s = .next t → t.Inv

/-- R37: every state reachable from reset, under any legal parameters and any stimulus, satisfies the list of R37. The second
clause is the model's reading (DEDUCED, log 5): R37, D32 and I7 treat a state that violates the list as stuck, and the model
takes that at every edge without `rst`, a `clear` edge included, where R200 and R204 alone would give a next state. -/
def Obligations.ReachableStatesSatisfyR37 : Prop :=
  (∀ (c : Config) (p : List Stimulus) (n : Nat) (t : State), c.legal →
    Host.Core.run Sys2Proof.core n { State.resetWith c with pending := p } = .next t →
    (t.parse.st = .hunt → t.parse.pos.toNat = 0) ∧
    (t.parse.st = .start → t.parse.pos.toNat = 1) ∧
    (t.parse.st = .cmd → 2 ≤ t.parse.pos.toNat ∧ t.parse.pos.toNat ≤ 19) ∧
    (t.parse.st = .data → 2 ≤ t.parse.pos.toNat ∧ t.parse.pos.toNat ≤ t.parse.wLen.toNat + 4) ∧
    (t.parse.st = .data → ∀ i : Fin 15, (t.parse.wLen.toNat ≤ i.val ∨ t.parse.pos.toNat ≤ 4 + i.val) → t.parse.wPl[i] = 0) ∧
    (t.out.valid = true → t.inReady = false)) ∧
  (∀ (s : State) (v : PortVector) (rest : List Stimulus), v.rst = false → s.parse.legal = false →
    step (s.atEdge v rest) = .fault .stuck)

/-- R230: no stimulus stops the block: from every state inside the invariant, reset included, every run of every length goes on. -/
def Obligations.NoStimulusStopsTheBlock : Prop :=
  ∀ (s : State) (n : Nat), s.Inv → s.runsSafely n

/-! ### The state machine and the reference function -/

/-- R112, one byte: an accepted byte signals exactly the outcomes of `decode_all` of the logical buffer with that byte, in
order, the frame of DATA_OK included, and leaves exactly the undecided bytes. -/
def Obligations.AcceptedByteMatchesTheReference : Prop :=
  ∀ (s : State) (v : PortVector) (rest : List Stimulus), s.readyFor v →
    ∃ t, step (s.atEdge v rest) = .next t ∧
      t.signalled = (decodeAll s.cfg.mask (s.bufAt v ++ [v.inData])).1 ∧
      t.buf = undecided s.cfg.mask (s.bufAt v ++ [v.inData]) ∧
      t.parse.rep s.cfg.mask t.buf = true

/-- R112: from a state with an empty logical buffer, or a first edge that clears, and no reset or later clear: after any run
the parse registers represent what the reference pass leaves of the accepted bytes, and the outcomes signalled are the
reference outcomes in order, frames field by field; no edge signals two outcomes but for BADTYPE with NOSTART. -/
def Obligations.StateMachineEqualsReference : Prop :=
  ∀ (s : State) (vs : List PortVector), s.Inv → noReset vs → noClear (vs.drop 1) →
    (s.buf = [] ∨ ∃ v rest, vs = v :: rest ∧ v.clear = true) →
    ∃ o, s.observe vs = some o ∧
      o.final.parse.rep s.cfg.mask (undecided s.cfg.mask o.accepted) = true ∧
      o.outs = (decodeAll s.cfg.mask o.accepted).1 ∧
      (∀ e ∈ o.evts, evtLegal e)

/-- R211: in a run from reset without a later reset, the frames transferred and then the frame still held are exactly the
`DATA_OK` frames of the byte sequences accepted between clears, in order, and their `captured_at` values are the `ts` samples
of the emitting edges. -/
def Obligations.ObservationLaw : Prop :=
  ∀ (c : Config) (vs : List PortVector), c.legal → noReset vs →
    ∃ o, (State.resetWith c).observe vs = some o ∧
      (o.transferred ++ o.final.held).map CanFrame.frame = o.segments.flatMap (fun S => framesOf (decodeAll c.mask S).1) ∧
      (o.transferred ++ o.final.held).map CanFrame.capturedAt = o.stamps

/-- R209, R255: a byte source that holds each byte until it is accepted and a consumer that is always ready lose nothing: after
twice as many cycles as bytes, all are accepted and every frame of theirs is delivered. -/
def Obligations.HoldingSourceAndReadyConsumerLoseNothing : Prop :=
  ∀ (c : Config) (bytes : List Byte) (cycles : List (Bool × Nat)), c.legal → (∀ y ∈ cycles, y.1 = true) →
    2 * bytes.length ≤ cycles.length →
    ∃ o, (State.resetWith c).runHolding cycles bytes = some o ∧ o.accepted = bytes ∧
      o.transferred.map CanFrame.frame = framesOf (decodeAll c.mask bytes).1 ∧ o.final.out.valid = false

/-- R130, R140: the whole DATA_FRAME instruction, byte by byte: from an empty buffer and a free output register, offering its
`L+5` bytes at `L+5` edges signals nothing before the last edge; there a good terminator leaves its frame, stamped with that
edge's `ts`, and any other one leaves the output registers as they were. -/
def Obligations.DataFrameReceivedByteByByte : Prop :=
  ∀ (s : State) (ext rsv : Bool) (id : BitVec 16) (payload : List Byte) (term : Byte) (vs : List PortVector) (last : PortVector),
    s.Inv → s.buf = [] → s.out.valid = false →
    Instr.wellFormed s.cfg (.dataFrame ext rsv id payload term) = true →
    offersBytes (vs ++ [last]) (encode s.cfg (.dataFrame ext rsv id payload term)) →
    ∃ o, s.observe (vs ++ [last]) = some o ∧ (vs ++ [last]).length = payload.length + 5 ∧
      o.evts = List.replicate (payload.length + 4) 0 ++ [if term = 0x55 then 0x10 else 0x20] ∧
      o.final.parse.st = .hunt ∧ o.final.buf = [] ∧
      (term = 0x55 → o.final.out.valid = true ∧ o.final.outFrame = dataFrameOf ext id payload ∧
        o.final.out.ts = last.ts % 2 ^ s.cfg.tsW) ∧
      (term ≠ 0x55 → o.final.out = s.out)

/-- R160, R163, R164: the whole CMD_FRAME instruction: 20 bytes, whatever they are, signal nothing before the last edge, then
CMD, with CMD_CKOK exactly when the last byte is the sum of the body modulo 256; nothing is emitted. -/
def Obligations.CommandFrameReceivedByteByByte : Prop :=
  ∀ (s : State) (body : List Byte) (ck : Byte) (vs : List PortVector),
    s.Inv → s.buf = [] → s.out.valid = false → body.length = 17 →
    offersBytes vs (encode s.cfg (.cmdFrame body ck)) →
    ∃ o, s.observe vs = some o ∧
      o.evts = List.replicate 19 0 ++ [if ck = checksum body then 0x0C else 0x04] ∧
      o.final.parse.st = .hunt ∧ o.final.buf = [] ∧ o.final.out = s.out

/-! ### The reference function -/

/-- R109: a decided step does not depend on later bytes, and a waiting buffer has one of the four forms. -/
def Obligations.DecodeStepIsPrefixStable : Prop :=
  ∀ (m : DataTypeMask) (B : List Byte),
    (∀ k o Y, decodeStep m B = .consume k o → decodeStep m (B ++ Y) = .consume k o) ∧
    (decodeStep m B = .wait →
      B = [] ∨ B = [0xAA] ∨ (∃ r, B = 0xAA :: 0x55 :: r ∧ r.length < 18) ∨
      (∃ T r, B = 0xAA :: T :: r ∧ dataClass m T = true ∧ B.length < (T &&& 0x0F).toNat + 5))

/-- R110: for any split of a stream into chunks, the session gives the outcomes and the retained buffer of one pass over the whole. -/
def Obligations.ChunkingDoesNotMatter : Prop :=
  ∀ (m : DataTypeMask) (chunks : List (List Byte)),
    decodeSession m [] chunks = ((decodeAll m chunks.flatten).1, undecided m chunks.flatten)

/-- R111: what a pass retains has at most 19 bytes, could not be consumed already, and of a data frame is at most `L+4` bytes. -/
def Obligations.RetentionIsBounded : Prop :=
  ∀ (m : DataTypeMask) (B : List Byte),
    (undecided m B).length ≤ 19 ∧ decodeStep m (undecided m B) = .wait ∧
    ∀ T r, undecided m B = 0xAA :: T :: r → dataClass m T = true → (undecided m B).length ≤ (typeLen T).toNat + 4

/-- R113: a byte sequence without 0xAA yields one NOSTART per byte, no frame, and is consumed whole. -/
def Obligations.NoStartByteNoFrame : Prop :=
  ∀ (m : DataTypeMask) (S : List Byte), (0xAA : Byte) ∉ S →
    decodeAll m S = (List.replicate S.length .noStart, S.length)

/-- R114: one stray byte before a well-formed data frame costs exactly one discard, NOSTART, or BADTYPE when it is 0xAA. -/
def Obligations.OneStrayByteCostsOneDiscard : Prop :=
  ∀ (c : Config) (z : Byte) (ext rsv : Bool) (id : BitVec 16) (payload : List Byte),
    Instr.wellFormed c (.dataFrame ext rsv id payload 0x55) = true →
    decodeAll c.mask (encode c (.dataFrame ext rsv id payload 0x55)) =
      ([.dataOk (dataFrameOf ext id payload)], payload.length + 5) ∧
    decodeAll c.mask (z :: encode c (.dataFrame ext rsv id payload 0x55)) =
      ([if z = 0xAA then .badType else .noStart, .dataOk (dataFrameOf ext id payload)], payload.length + 6)

/-- R140: a data-frame span is exactly `L+5` bytes whether its terminator matched or not, and every emitted frame began with 0xAA. -/
def Obligations.DataSpanIsLengthPlusFive : Prop :=
  ∀ (m : DataTypeMask) (B : List Byte) (k : Nat),
    (∀ f, decodeStep m B = .consume k (.dataOk f) →
      k = f.length.toNat + 5 ∧ f.payload.length = f.length.toNat ∧ B.getD 0 0 = 0xAA ∧ B.getD (k - 1) 0 = 0x55 ∧ k ≤ B.length) ∧
    (decodeStep m B = .consume k .badTerm →
      k = (B.getD 1 0 &&& 0x0F).toNat + 5 ∧ B.getD 0 0 = 0xAA ∧ B.getD (k - 1) 0 ≠ 0x55 ∧ k ≤ B.length)

/-! ### Encoding -/

/-- Decode and encode agree: every well-formed received instruction, at every operand value, followed by any bytes, decodes to
itself and leaves what its span size says. -/
def Obligations.DecodeOfEncodeIsTheInstruction : Prop :=
  ∀ (c : Config) (i : Instr) (Y : List Byte), i.received = true → i.wellFormed c = true →
    decode c (encode c i ++ Y) = .span i ((encode c i ++ Y).drop i.size)

/-- The other direction: what decodes is well formed, its bytes are the ones decoded, and the rest is what its size leaves. -/
def Obligations.DecodedBytesAreTheEncoding : Prop :=
  ∀ (c : Config) (B rest : List Byte) (i : Instr), decode c B = .span i rest →
    i.received = true ∧ i.wellFormed c = true ∧ encode c i <+: B ∧ rest = B.drop i.size

/-- R76, R87 against R100: the head-pair table's decoder and the reference step agree: they wait together, and a span has the
reference's size and outcome. -/
def Obligations.TableDecoderAgreesWithReferenceStep : Prop :=
  ∀ (c : Config) (B : List Byte),
    (∀ i rest, decode c B = .span i rest → ∃ o, i.outcome? = some o ∧ decodeStep c.mask B = .consume i.size o) ∧
    (∀ why, decode c B = .wait why → decodeStep c.mask B = .wait)

/-- R77: the classification of every second byte after 0xAA under both masks, with the `X` and `R` bits, and the counts. -/
def Obligations.EverySecondByteIsClassified : Prop :=
  (∀ T : Byte, classify .c0 [0xAA, T] =
    some (if T = 0x55 then .cmdFrame else if 0xC0 ≤ T.toNat then .dataFrame else .badType)) ∧
  (∀ T : Byte, classify .f0 [0xAA, T] =
    some (if T = 0x55 then .cmdFrame else if 0xC0 ≤ T.toNat ∧ T.toNat ≤ 0xCF then .dataFrame else .badType)) ∧
  (∀ T : Byte, 0xC0 ≤ T.toNat → typeExt T = decide (0xE0 ≤ T.toNat) ∧ typeRsv T = decide (T.toNat / 16 % 2 = 1)) ∧
  (∀ m : DataTypeMask, ∀ k : SpanClass,
    ((List.range 256).filter fun n => classify m [0xAA, BitVec.ofNat 8 n] = some k).length =
      match m, k with
      | _, .noStart => 0
      | _, .cmdFrame => 1
      | .c0, .badType => 191
      | .c0, .dataFrame => 64
      | .f0, .badType => 239
      | .f0, .dataFrame => 16)

/-- R74: the data class under each mask; under 0xF0 no frame is ever extended; 0x55 and 0xAA are data class under neither. -/
def Obligations.DataClassUnderBothMasks : Prop :=
  (∀ T : Byte, dataClass .c0 T = true ↔ 0xC0 ≤ T.toNat) ∧
  (∀ T : Byte, dataClass .f0 T = true ↔ 0xC0 ≤ T.toNat ∧ T.toNat ≤ 0xCF) ∧
  (∀ T : Byte, dataClass .f0 T = true → typeExt T = false) ∧
  (∀ m : DataTypeMask, dataClass m 0x55 = false ∧ dataClass m 0xAA = false)

/-- Words written out from R71 to R73 and the opcode table decode to the instructions they stand for (sanity). The
layout of a table word's bytes beyond `W` is the model's choice (log 9). -/
def Obligations.SpecWordsDecode : Prop :=
  decodeTableWord 16 0xAA55 = some (.cmdFrame (List.replicate 17 0) 0) ∧
  decodeTableWord 16 0xAAC0 = some (.dataFrame false false 0 [] 0) ∧
  decodeTableWord 16 0xAA00 = some (.badType 0) ∧
  decodeTableWord 8 0x7F = some (.noStart 0x7F) ∧
  decode .default [0xAA, 0xE2, 0x23, 0x01, 0x0A, 0x0B, 0x55, 0x99] =
    .span (.dataFrame true false 0x0123 [0x0A, 0x0B] 0x55) [0x99]

/-! ### The init command -/

/-- R183, R184: the 20 bytes for any `SPEED_CODE`, the checksum in the closed form of R185 and as the sum of offsets 2..18. -/
def Obligations.InitCommandBytes : Prop :=
  ∀ (t : SpeedTable) (bps : Bps),
    initCommand t bps =
      [0xAA, 0x55, 0x12, speedCode t bps, 0x01, 0, 0, 0, 0, 0, 0, 0, 0, 0, 0x01, 0, 0, 0, 0, 0x14 + speedCode t bps] ∧
    ((initCommand t bps).getD 19 0).toNat = ((((initCommand t bps).drop 2).take 17).map BitVec.toNat).sum % 256

/-- R181: a key gives its code, any other speed the code of 500000, for any `SPEED_CODE` (the code values of R182 are no part of
this statement). -/
def Obligations.SpeedCodeFallsBackTo500000 : Prop :=
  ∀ (t : SpeedTable) (bps : Bps),
    (∀ k, t.code? bps = some k → speedCode t bps = k) ∧
    (t.code? bps = none → speedCode t bps = speedCode t 500000) ∧
    t.code? 500000 = some t.code500k

/-- R187 item 4, R163 item 5: any init command fed back to the decoder is one command frame with a good checksum. -/
def Obligations.InitCommandLoopsBackAsGoodCommand : Prop :=
  ∀ (c : Config) (bps : Bps), decodeAll c.mask (initCommand c.speedCodes bps) = ([.cmd true], 20)
end

