-- ==== Sys2Proof/Laws/Decode.lean ====
section
/-! SUPPORT. The decoder and the reference step by the form of the buffer: one equation per form. -/

namespace Sys2Proof

/-- The row search of the head-pair table, by the second byte. -/
theorem rowSearch_eq : ∀ (m : DataTypeMask) (T : Byte),
    ((headRows m).find? (·.hits (headWord startByte T))).map HeadRow.cls =
      some (if T = cmdMark then .cmdFrame else if dataClass m T then .dataFrame else .badType) := by
  intro m; cases m <;> decide +revert

theorem classify_pair (m : DataTypeMask) (T : Byte) (r : List Byte) :
    classify m (startByte :: T :: r) =
      some (if T = cmdMark then .cmdFrame else if dataClass m T then .dataFrame else .badType) := by
  rw [← rowSearch_eq m T]; simp [classify]

theorem dataClass_cmdMark (m : DataTypeMask) : dataClass m cmdMark = false := by cases m <;> decide

theorem dataClass_startByte (m : DataTypeMask) : dataClass m startByte = false := by cases m <;> decide

theorem ne_cmdMark_of_dataClass {m : DataTypeMask} {T : Byte} (h : dataClass m T = true) : T ≠ cmdMark := by
  rintro rfl; simp [dataClass_cmdMark] at h

theorem ne_startByte_of_dataClass {m : DataTypeMask} {T : Byte} (h : dataClass m T = true) : T ≠ startByte := by
  rintro rfl; simp [dataClass_startByte] at h

/-! ### `decode` -/

@[simp] theorem decode_nil (c : Config) : decode c [] = .wait .emptyBuffer := rfl

@[simp] theorem decode_loneStart (c : Config) : decode c [startByte] = .wait .loneStart := rfl

theorem decode_noStart (c : Config) {b : Byte} (h : b ≠ startByte) (r : List Byte) :
    decode c (b :: r) = .span (.noStart b) r := by
  simp [decode, classify, h]

theorem decode_badType (c : Config) {T : Byte} (h : T ≠ cmdMark) (h' : dataClass c.mask T = false) (r : List Byte) :
    decode c (startByte :: T :: r) = .span (.badType T) (T :: r) := by
  simp [decode, classify_pair, h, h']

theorem decode_cmdFrame (c : Config) (r : List Byte) :
    decode c (startByte :: cmdMark :: r) =
      if r.length < 18 then .wait .shortCommand else .span (.cmdFrame (r.take 17) (r.getD 17 0)) (r.drop 18) := by
  have h : r.length + 1 + 1 < 20 ↔ r.length < 18 := by omega
  simp [decode, classify_pair, cmdSize, h]

theorem decode_dataFrame (c : Config) {T : Byte} (h : dataClass c.mask T = true) (r : List Byte) :
    decode c (startByte :: T :: r) =
      if r.length < (typeLen T).toNat + 3 then .wait .shortData
      else .span (.dataFrame (typeExt T) (typeRsv T) (identOf (r.getD 0 0) (r.getD 1 0)) ((r.drop 2).take (typeLen T).toNat)
        (r.getD ((typeLen T).toNat + 2) 0)) (r.drop ((typeLen T).toNat + 3)) := by
  simp [decode, classify_pair, h, ne_cmdMark_of_dataClass h, overhead]

/-! ### `decodeStep` -/

@[simp] theorem decodeStep_nil (m : DataTypeMask) : decodeStep m [] = .wait := rfl

@[simp] theorem decodeStep_loneStart (m : DataTypeMask) : decodeStep m [startByte] = .wait := rfl

theorem decodeStep_noStart (m : DataTypeMask) {b : Byte} (h : b ≠ startByte) (r : List Byte) :
    decodeStep m (b :: r) = .consume 1 .noStart := by
  simp [decodeStep, h]

theorem decodeStep_badType (m : DataTypeMask) {T : Byte} (h : T ≠ cmdMark) (h' : dataClass m T = false) (r : List Byte) :
    decodeStep m (startByte :: T :: r) = .consume 1 .badType := by
  simp [decodeStep, h, h']

theorem decodeStep_cmdFrame (m : DataTypeMask) (r : List Byte) :
    decodeStep m (startByte :: cmdMark :: r) =
      if r.length < 18 then .wait else .consume 20 (.cmd (r.getD 17 0 = checksum (r.take 17))) := by
  have h : 20 ≤ r.length + 1 + 1 ↔ ¬ r.length < 18 := by omega
  by_cases hr : r.length < 18 <;> simp [decodeStep, cmdSize, h, hr]

theorem decodeStep_dataFrame (m : DataTypeMask) {T : Byte} (h : dataClass m T = true) (r : List Byte) :
    decodeStep m (startByte :: T :: r) =
      if r.length < (typeLen T).toNat + 3 then .wait
      else .consume ((typeLen T).toNat + 5) (if r.getD ((typeLen T).toNat + 2) 0 = termByte
        then .dataOk { identifier := identOf (r.getD 0 0) (r.getD 1 0), length := typeLen T
                       payload := (r.drop 2).take (typeLen T).toNat, isExtended := typeExt T }
        else .badTerm) := by
  by_cases hl : r.length < (typeLen T).toNat + 3
  · simp [decodeStep, ne_cmdMark_of_dataClass h, h, hl, overhead]
  · by_cases ht : r.getD ((typeLen T).toNat + 2) 0 = termByte <;>
      simp [decodeStep, ne_cmdMark_of_dataClass h, h, hl, overhead] at ht ⊢ <;> simp [ht]

/-- Every buffer has one of the six forms of R76 and R109. -/
theorem buffer_forms (m : DataTypeMask) (B : List Byte) :
    B = [] ∨ (∃ b r, B = b :: r ∧ b ≠ startByte) ∨ B = [startByte] ∨ (∃ r, B = startByte :: cmdMark :: r) ∨
    (∃ T r, B = startByte :: T :: r ∧ dataClass m T = true) ∨
    (∃ T r, B = startByte :: T :: r ∧ T ≠ cmdMark ∧ dataClass m T = false) := by
  match B with
  | [] => simp
  | [b] => by_cases h : b = startByte <;> simp [h]
  | b :: T :: r =>
    by_cases h : b = startByte
    · subst h
      by_cases hc : T = cmdMark
      · simp [hc]
      · cases hd : dataClass m T <;> simp [hc, hd]
    · simp [h]

/-! ### The fields of the type byte and the identifier -/

theorem typeByte_fields : ∀ (ext rsv : Bool) (len : BitVec 4),
    typeLen (typeByte ext rsv len) = len ∧ typeExt (typeByte ext rsv len) = ext ∧ typeRsv (typeByte ext rsv len) = rsv ∧
    dataClass .c0 (typeByte ext rsv len) = true ∧ dataClass .f0 (typeByte ext rsv len) = (!ext && !rsv) := by decide

theorem typeByte_of_dataClass : ∀ (m : DataTypeMask) (T : Byte), dataClass m T = true →
    typeByte (typeExt T) (typeRsv T) (typeLen T) = T ∧ (m = .f0 → typeExt T = false ∧ typeRsv T = false) := by
  intro m; cases m <;> decide +revert

theorem identOf_parts (id : BitVec 16) : identOf (identLo id) (identHi id) = id := by
  apply BitVec.eq_of_getLsbD_eq
  intro i hi
  simp only [identOf, identLo, identHi, BitVec.getLsbD_or, BitVec.getLsbD_shiftLeft, BitVec.truncate_eq_setWidth,
    BitVec.getLsbD_setWidth, BitVec.getLsbD_extractLsb']
  by_cases h : i < 8
  · simp [h, hi]
  · have : 8 + (i - 8) = i := by omega
    have h8 : i - 8 < 8 := by omega
    simp [h, hi, this, h8]
    omega

theorem identLo_identOf (lo hi : Byte) : identLo (identOf lo hi) = lo := by
  apply BitVec.eq_of_getLsbD_eq
  intro i h
  have : i < 16 := by omega
  simp [identOf, identLo, h, this]

theorem identHi_identOf (lo hi : Byte) : identHi (identOf lo hi) = hi := by
  apply BitVec.eq_of_getLsbD_eq
  intro i h
  have : 8 + i < 16 := by omega
  simp [identOf, identHi, h, this]

end Sys2Proof
end

