-- ==== Sys2Proof/Laws/State.lean ====
section
/-! SUPPORT. One lemma per field per named update of the state, true by `rfl`: no later proof unfolds a record update. -/

namespace Sys2Proof.Machine

@[simp] theorem State.signal_cfg (e : Evt) (s : State) : (s.signal e).cfg = s.cfg := rfl
@[simp] theorem State.signal_parse (e : Evt) (s : State) : (s.signal e).parse = s.parse := rfl
@[simp] theorem State.signal_out (e : Evt) (s : State) : (s.signal e).out = s.out := rfl
@[simp] theorem State.signal_evt (e : Evt) (s : State) : (s.signal e).evt = s.evt ||| e.bit := rfl
@[simp] theorem State.signal_buf (e : Evt) (s : State) : (s.signal e).buf = s.buf := rfl
@[simp] theorem State.signal_inp (e : Evt) (s : State) : (s.signal e).inp = s.inp := rfl
@[simp] theorem State.signal_speedBps (e : Evt) (s : State) : (s.signal e).speedBps = s.speedBps := rfl
@[simp] theorem State.signal_pending (e : Evt) (s : State) : (s.signal e).pending = s.pending := rfl

@[simp] theorem State.emit_cfg (f : Frame) (s : State) : (s.emit f).cfg = s.cfg := rfl
@[simp] theorem State.emit_parse (f : Frame) (s : State) : (s.emit f).parse = s.parse := rfl
@[simp] theorem State.emit_out (f : Frame) (s : State) : (s.emit f).out = OutRegs.emit f s.sampledTs := rfl
@[simp] theorem State.emit_evt (f : Frame) (s : State) : (s.emit f).evt = s.evt := rfl
@[simp] theorem State.emit_buf (f : Frame) (s : State) : (s.emit f).buf = s.buf := rfl
@[simp] theorem State.emit_inp (f : Frame) (s : State) : (s.emit f).inp = s.inp := rfl
@[simp] theorem State.emit_speedBps (f : Frame) (s : State) : (s.emit f).speedBps = s.speedBps := rfl
@[simp] theorem State.emit_pending (f : Frame) (s : State) : (s.emit f).pending = s.pending := rfl

@[simp] theorem State.endSpan_cfg (s : State) : (s.endSpan).cfg = s.cfg := rfl
@[simp] theorem State.endSpan_parse (s : State) : (s.endSpan).parse = s.parse.toHunt := rfl
@[simp] theorem State.endSpan_out (s : State) : (s.endSpan).out = s.out := rfl
@[simp] theorem State.endSpan_evt (s : State) : (s.endSpan).evt = s.evt := rfl
@[simp] theorem State.endSpan_buf (s : State) : (s.endSpan).buf = [] := rfl
@[simp] theorem State.endSpan_inp (s : State) : (s.endSpan).inp = s.inp := rfl
@[simp] theorem State.endSpan_speedBps (s : State) : (s.endSpan).speedBps = s.speedBps := rfl
@[simp] theorem State.endSpan_pending (s : State) : (s.endSpan).pending = s.pending := rfl

@[simp] theorem State.resetBy_cfg (v : PortVector) (s : State) : (s.resetBy v).cfg = s.cfg := rfl
@[simp] theorem State.resetBy_parse (v : PortVector) (s : State) : (s.resetBy v).parse = .reset := rfl
@[simp] theorem State.resetBy_out (v : PortVector) (s : State) : (s.resetBy v).out = .reset := rfl
@[simp] theorem State.resetBy_evt (v : PortVector) (s : State) : (s.resetBy v).evt = 0 := rfl
@[simp] theorem State.resetBy_buf (v : PortVector) (s : State) : (s.resetBy v).buf = [] := rfl
@[simp] theorem State.resetBy_inp (v : PortVector) (s : State) : (s.resetBy v).inp = v := rfl
@[simp] theorem State.resetBy_speedBps (v : PortVector) (s : State) : (s.resetBy v).speedBps = s.speedBps := rfl
@[simp] theorem State.resetBy_pending (v : PortVector) (s : State) : (s.resetBy v).pending = s.pending := rfl

@[simp] theorem State.acceptPrefix_cfg (b : Byte) (s : State) : (s.acceptPrefix b).cfg = s.cfg := rfl
@[simp] theorem State.acceptPrefix_parse (b : Byte) (s : State) : (s.acceptPrefix b).parse = s.parse.advance b := rfl
@[simp] theorem State.acceptPrefix_out (b : Byte) (s : State) : (s.acceptPrefix b).out = s.out := rfl
@[simp] theorem State.acceptPrefix_evt (b : Byte) (s : State) : (s.acceptPrefix b).evt = s.evt := rfl
@[simp] theorem State.acceptPrefix_buf (b : Byte) (s : State) : (s.acceptPrefix b).buf = s.buf ++ [b] := rfl
@[simp] theorem State.acceptPrefix_inp (b : Byte) (s : State) : (s.acceptPrefix b).inp = s.inp := rfl
@[simp] theorem State.acceptPrefix_speedBps (b : Byte) (s : State) : (s.acceptPrefix b).speedBps = s.speedBps := rfl
@[simp] theorem State.acceptPrefix_pending (b : Byte) (s : State) : (s.acceptPrefix b).pending = s.pending := rfl

@[simp] theorem State.atEdge_cfg (v : PortVector) (rest : List Stimulus) (s : State) : (s.atEdge v rest).cfg = s.cfg := rfl
@[simp] theorem State.atEdge_parse (v : PortVector) (rest : List Stimulus) (s : State) : (s.atEdge v rest).parse = s.parse := rfl
@[simp] theorem State.atEdge_out (v : PortVector) (rest : List Stimulus) (s : State) : (s.atEdge v rest).out = s.out := rfl
@[simp] theorem State.atEdge_evt (v : PortVector) (rest : List Stimulus) (s : State) : (s.atEdge v rest).evt = s.evt := rfl
@[simp] theorem State.atEdge_buf (v : PortVector) (rest : List Stimulus) (s : State) : (s.atEdge v rest).buf = s.buf := rfl
@[simp] theorem State.atEdge_inp (v : PortVector) (rest : List Stimulus) (s : State) : (s.atEdge v rest).inp = s.inp := rfl
@[simp] theorem State.atEdge_speedBps (v : PortVector) (rest : List Stimulus) (s : State) : (s.atEdge v rest).speedBps = s.speedBps := rfl
@[simp] theorem State.atEdge_pending (v : PortVector) (rest : List Stimulus) (s : State) : (s.atEdge v rest).pending = .edge v :: rest := rfl

@[simp] theorem ParseRegs.toHunt_st (p : ParseRegs) : (p.toHunt).st = .hunt := rfl
@[simp] theorem ParseRegs.toHunt_pos (p : ParseRegs) : (p.toHunt).pos = 0 := rfl
@[simp] theorem ParseRegs.toHunt_wLen (p : ParseRegs) : (p.toHunt).wLen = p.wLen := rfl
@[simp] theorem ParseRegs.toHunt_wExt (p : ParseRegs) : (p.toHunt).wExt = p.wExt := rfl
@[simp] theorem ParseRegs.toHunt_wId (p : ParseRegs) : (p.toHunt).wId = p.wId := rfl
@[simp] theorem ParseRegs.toHunt_wPl (p : ParseRegs) : (p.toHunt).wPl = p.wPl := rfl
@[simp] theorem ParseRegs.toHunt_csum (p : ParseRegs) : (p.toHunt).csum = p.csum := rfl

@[simp] theorem ParseRegs.startSpan_st (p : ParseRegs) : (p.startSpan).st = .start := rfl
@[simp] theorem ParseRegs.startSpan_pos (p : ParseRegs) : (p.startSpan).pos = 1 := rfl
@[simp] theorem ParseRegs.startSpan_wLen (p : ParseRegs) : (p.startSpan).wLen = p.wLen := rfl
@[simp] theorem ParseRegs.startSpan_wExt (p : ParseRegs) : (p.startSpan).wExt = p.wExt := rfl
@[simp] theorem ParseRegs.startSpan_wId (p : ParseRegs) : (p.startSpan).wId = p.wId := rfl
@[simp] theorem ParseRegs.startSpan_wPl (p : ParseRegs) : (p.startSpan).wPl = p.wPl := rfl
@[simp] theorem ParseRegs.startSpan_csum (p : ParseRegs) : (p.startSpan).csum = p.csum := rfl

@[simp] theorem ParseRegs.beginCmd_st (p : ParseRegs) : (p.beginCmd).st = .cmd := rfl
@[simp] theorem ParseRegs.beginCmd_pos (p : ParseRegs) : (p.beginCmd).pos = 2 := rfl
@[simp] theorem ParseRegs.beginCmd_wLen (p : ParseRegs) : (p.beginCmd).wLen = p.wLen := rfl
@[simp] theorem ParseRegs.beginCmd_wExt (p : ParseRegs) : (p.beginCmd).wExt = p.wExt := rfl
@[simp] theorem ParseRegs.beginCmd_wId (p : ParseRegs) : (p.beginCmd).wId = p.wId := rfl
@[simp] theorem ParseRegs.beginCmd_wPl (p : ParseRegs) : (p.beginCmd).wPl = p.wPl := rfl
@[simp] theorem ParseRegs.beginCmd_csum (p : ParseRegs) : (p.beginCmd).csum = 0 := rfl

@[simp] theorem ParseRegs.bodyByte_st (b : Byte) (p : ParseRegs) : (p.bodyByte b).st = p.st := rfl
@[simp] theorem ParseRegs.bodyByte_pos (b : Byte) (p : ParseRegs) : (p.bodyByte b).pos = p.pos + 1 := rfl
@[simp] theorem ParseRegs.bodyByte_wLen (b : Byte) (p : ParseRegs) : (p.bodyByte b).wLen = p.wLen := rfl
@[simp] theorem ParseRegs.bodyByte_wExt (b : Byte) (p : ParseRegs) : (p.bodyByte b).wExt = p.wExt := rfl
@[simp] theorem ParseRegs.bodyByte_wId (b : Byte) (p : ParseRegs) : (p.bodyByte b).wId = p.wId := rfl
@[simp] theorem ParseRegs.bodyByte_wPl (b : Byte) (p : ParseRegs) : (p.bodyByte b).wPl = p.wPl := rfl
@[simp] theorem ParseRegs.bodyByte_csum (b : Byte) (p : ParseRegs) : (p.bodyByte b).csum = p.csum + b := rfl

@[simp] theorem ParseRegs.beginData_st (t : Byte) (p : ParseRegs) : (p.beginData t).st = .data := rfl
@[simp] theorem ParseRegs.beginData_pos (t : Byte) (p : ParseRegs) : (p.beginData t).pos = 2 := rfl
@[simp] theorem ParseRegs.beginData_wLen (t : Byte) (p : ParseRegs) : (p.beginData t).wLen = typeLen t := rfl
@[simp] theorem ParseRegs.beginData_wExt (t : Byte) (p : ParseRegs) : (p.beginData t).wExt = typeExt t := rfl
@[simp] theorem ParseRegs.beginData_wId (t : Byte) (p : ParseRegs) : (p.beginData t).wId = 0 := rfl
@[simp] theorem ParseRegs.beginData_wPl (t : Byte) (p : ParseRegs) : (p.beginData t).wPl = Vector.replicate 15 0 := rfl
@[simp] theorem ParseRegs.beginData_csum (t : Byte) (p : ParseRegs) : (p.beginData t).csum = p.csum := rfl

@[simp] theorem ParseRegs.idLow_st (b : Byte) (p : ParseRegs) : (p.idLow b).st = p.st := rfl
@[simp] theorem ParseRegs.idLow_pos (b : Byte) (p : ParseRegs) : (p.idLow b).pos = 3 := rfl
@[simp] theorem ParseRegs.idLow_wLen (b : Byte) (p : ParseRegs) : (p.idLow b).wLen = p.wLen := rfl
@[simp] theorem ParseRegs.idLow_wExt (b : Byte) (p : ParseRegs) : (p.idLow b).wExt = p.wExt := rfl
@[simp] theorem ParseRegs.idLow_wId (b : Byte) (p : ParseRegs) : (p.idLow b).wId = identHi p.wId ++ b := rfl
@[simp] theorem ParseRegs.idLow_wPl (b : Byte) (p : ParseRegs) : (p.idLow b).wPl = p.wPl := rfl
@[simp] theorem ParseRegs.idLow_csum (b : Byte) (p : ParseRegs) : (p.idLow b).csum = p.csum := rfl

@[simp] theorem ParseRegs.idHigh_st (b : Byte) (p : ParseRegs) : (p.idHigh b).st = p.st := rfl
@[simp] theorem ParseRegs.idHigh_pos (b : Byte) (p : ParseRegs) : (p.idHigh b).pos = 4 := rfl
@[simp] theorem ParseRegs.idHigh_wLen (b : Byte) (p : ParseRegs) : (p.idHigh b).wLen = p.wLen := rfl
@[simp] theorem ParseRegs.idHigh_wExt (b : Byte) (p : ParseRegs) : (p.idHigh b).wExt = p.wExt := rfl
@[simp] theorem ParseRegs.idHigh_wId (b : Byte) (p : ParseRegs) : (p.idHigh b).wId = b ++ identLo p.wId := rfl
@[simp] theorem ParseRegs.idHigh_wPl (b : Byte) (p : ParseRegs) : (p.idHigh b).wPl = p.wPl := rfl
@[simp] theorem ParseRegs.idHigh_csum (b : Byte) (p : ParseRegs) : (p.idHigh b).csum = p.csum := rfl

@[simp] theorem ParseRegs.payloadByte_st (b : Byte) (p : ParseRegs) : (p.payloadByte b).st = p.st := rfl
@[simp] theorem ParseRegs.payloadByte_pos (b : Byte) (p : ParseRegs) : (p.payloadByte b).pos = p.pos + 1 := rfl
@[simp] theorem ParseRegs.payloadByte_wLen (b : Byte) (p : ParseRegs) : (p.payloadByte b).wLen = p.wLen := rfl
@[simp] theorem ParseRegs.payloadByte_wExt (b : Byte) (p : ParseRegs) : (p.payloadByte b).wExt = p.wExt := rfl
@[simp] theorem ParseRegs.payloadByte_wId (b : Byte) (p : ParseRegs) : (p.payloadByte b).wId = p.wId := rfl
@[simp] theorem ParseRegs.payloadByte_wPl (b : Byte) (p : ParseRegs) : (p.payloadByte b).wPl = p.wPl.setIfInBounds (p.pos.toNat - 4) b := rfl
@[simp] theorem ParseRegs.payloadByte_csum (b : Byte) (p : ParseRegs) : (p.payloadByte b).csum = p.csum := rfl

@[simp] theorem OutRegs.emit_valid (f : Frame) (ts : Nat) : (OutRegs.emit f ts).valid = true := rfl
@[simp] theorem OutRegs.emit_id (f : Frame) (ts : Nat) : (OutRegs.emit f ts).id = f.identifier := rfl
@[simp] theorem OutRegs.emit_len (f : Frame) (ts : Nat) : (OutRegs.emit f ts).len = f.length := rfl
@[simp] theorem OutRegs.emit_ext (f : Frame) (ts : Nat) : (OutRegs.emit f ts).ext = f.isExtended := rfl
@[simp] theorem OutRegs.emit_pl (f : Frame) (ts : Nat) : (OutRegs.emit f ts).pl = padPayload f.payload := rfl
@[simp] theorem OutRegs.emit_ts (f : Frame) (ts : Nat) : (OutRegs.emit f ts).ts = ts := rfl

@[simp] theorem OutRegs.taken_valid (o : OutRegs) : (o.taken).valid = false := rfl
@[simp] theorem OutRegs.taken_id (o : OutRegs) : (o.taken).id = o.id := rfl
@[simp] theorem OutRegs.taken_len (o : OutRegs) : (o.taken).len = o.len := rfl
@[simp] theorem OutRegs.taken_ext (o : OutRegs) : (o.taken).ext = o.ext := rfl
@[simp] theorem OutRegs.taken_pl (o : OutRegs) : (o.taken).pl = o.pl := rfl
@[simp] theorem OutRegs.taken_ts (o : OutRegs) : (o.taken).ts = o.ts := rfl

end Sys2Proof.Machine
end

