-- ==== Sys2Proof/Laws/Ops.lean ====
section
/-! SUPPORT. One lemma per shared operation that says all it does. -/

namespace Sys2Proof.Machine

theorem State.clearBy_eq (v : PortVector) (s : State) :
    s.clearBy v = { s with parse := if v.clear then s.parse.toHunt else s.parse, buf := s.bufAt v } := by
  cases h : v.clear <;> simp [State.clearBy, State.endSpan, State.bufAt, h]

theorem State.deliverBy_eq (v : PortVector) (s : State) :
    s.deliverBy v = { s with out := { s.out with valid := s.out.valid && !v.outReady } } := by
  obtain ⟨cfg, parse, ⟨valid, id, len, ext, pl, ts⟩, evt, buf, inp, bps, pend⟩ := s
  cases valid <;> cases h : v.outReady <;> simp [State.deliverBy, State.transfers, OutRegs.taken, h]

/-- What an edge does before its byte: ports sampled, events empty, `clear` and the output transfer applied. -/
theorem State.beginEdge_eq (v : PortVector) (s : State) :
    s.beginEdge v = { s with
      inp := v, evt := 0, buf := s.bufAt v
      parse := if v.clear then s.parse.toHunt else s.parse
      out := { s.out with valid := s.out.valid && !v.outReady } } := by
  simp only [State.beginEdge, State.clearBy_eq, State.deliverBy_eq, State.bufAt]

theorem State.signalCkok_eq (ck : Byte) (s : State) :
    s.signalCkok ck = { s with evt := s.evt ||| if ck = s.parse.csum then Evt.cmdCkok.bit else 0 } := by
  by_cases h : ck = s.parse.csum <;> simp [State.signalCkok, State.signal, h]

theorem State.examineHead_eq (b : Byte) (s : State) :
    s.examineHead b = if b = startByte then { s with parse := s.parse.startSpan, buf := [b] } else s.signal .noStart := rfl

theorem State.accepts_eq_true (v : PortVector) (s : State) :
    s.accepts v = true ↔ v.inValid = true ∧ s.out.valid = false := by
  simp [State.accepts, State.inReady]

theorem State.accepts_eq_false (v : PortVector) (s : State) :
    s.accepts v = false ↔ v.inValid = false ∨ s.out.valid = true := by
  simp [State.accepts, State.inReady]
  cases v.inValid <;> simp

@[simp] theorem getElem_padPayload (payload : List Byte) (i : Fin 15) :
    (padPayload payload)[i] = payload.getD i.val 0 := by
  simp [padPayload]

/-- The payload of an emitted frame is read back whole (R138). -/
theorem take_padPayload (payload : List Byte) (h : payload.length ≤ 15) :
    (padPayload payload).toList.take payload.length = payload := by
  apply List.ext_getElem
  · simp [h]
  · intro i h1 h2
    simp [padPayload, h2]

end Sys2Proof.Machine
end

