-- ==== Sys2Proof/Laws/PerInstr.lean ====
section
/-! SUPPORT. The size of a span, per instruction (30_encoding.md R78): between 1 and 20 bytes, and the whole encoding but for
BADTYPE, which leaves its second byte (R76). -/

namespace Sys2Proof.Laws.SpanSize

/-- A well-formed instruction's span has 1 to 20 bytes, and its bytes are its encoding but for BADTYPE's second byte. -/
def Statement (i : Instr) : Prop :=
  ∀ c : Config, i.wellFormed c = true →
    1 ≤ i.size ∧ i.size ≤ longestSpan ∧ ((∀ t, i ≠ .badType t) → (encode c i).length = i.size)

theorem noStart (b : Byte) : Statement (.noStart b) := by
  intro c _; simp [Instr.size, encode]

theorem badType (t : Byte) : Statement (.badType t) := by
  intro c _; simp [Instr.size]

theorem cmdFrame (body : List Byte) (ck : Byte) : Statement (.cmdFrame body ck) := by
  intro c h
  simp only [Instr.wellFormed, decide_eq_true_eq] at h
  simp [Instr.size, encode, h]

theorem dataFrame (ext rsv : Bool) (id : BitVec 16) (payload : List Byte) (term : Byte) :
    Statement (.dataFrame ext rsv id payload term) := by
  intro c h
  simp only [Instr.wellFormed, Bool.and_eq_true, decide_eq_true_eq] at h
  have := h.1
  simp [Instr.size, encode, overhead, longestSpan]
  omega

theorem initCmd (bps : Bps) : Statement (.initCmd bps) := by
  intro c _; simp [Instr.size, encode, initCommand, initBody, cmdSize, longestSpan]

end Sys2Proof.Laws.SpanSize
end

