-- ==== Sys2Proof/Laws/Represent.lean ====
section
/-! SUPPORT. The representation of the logical buffer: its four forms, and what an accepted byte does to it. -/

namespace Sys2Proof.Machine

theorem two_le_length {B : List Byte} (h : 2 ≤ B.length) : ∃ x y r, B = x :: y :: r := by
  match B, h with
  | x :: y :: r, _ => exact ⟨x, y, r, rfl⟩

/-- `RepCmd` with the buffer opened. -/
theorem ParseRegs.repCmd_iff (p : ParseRegs) (B : List Byte) :
    p.RepCmd B ↔ ∃ r, B = startByte :: cmdMark :: r ∧ p.pos.toNat = r.length + 2 ∧ r.length ≤ 17 ∧ p.csum = checksum r := by
  constructor
  · rintro ⟨h1, h2, h3, h4, h5, h6⟩
    obtain ⟨x, y, r, rfl⟩ := two_le_length (h1 ▸ h2)
    simp only [List.getD_cons_zero, List.getD_cons_succ, List.length_cons, List.drop_succ_cons, List.drop_zero] at *
    exact ⟨r, by rw [h4, h5], by omega, by omega, h6⟩
  · rintro ⟨r, rfl, h1, h2, h3⟩
    simp only [ParseRegs.RepCmd, List.getD_cons_zero, List.getD_cons_succ, List.length_cons, List.drop_succ_cons, List.drop_zero]
    exact ⟨by omega, by omega, by omega, trivial, trivial, h3⟩

/-- `RepData` with the buffer opened. -/
theorem ParseRegs.repData_iff (m : DataTypeMask) (p : ParseRegs) (B : List Byte) :
    p.RepData m B ↔ ∃ T r, B = startByte :: T :: r ∧ dataClass m T = true ∧ p.pos.toNat = r.length + 2 ∧
      r.length ≤ (typeLen T).toNat + 2 ∧ p.wLen = typeLen T ∧ p.wExt = typeExt T ∧
      (1 ≤ r.length → identLo p.wId = r.getD 0 0) ∧ (2 ≤ r.length → identHi p.wId = r.getD 1 0) ∧
      ∀ i : Fin 15, p.wPl[i] = r.getD (i.val + 2) 0 := by
  constructor
  · rintro ⟨h1, h2, h3, h4, h5, h6, h7, h8, h9, h10⟩
    obtain ⟨x, y, r, rfl⟩ := two_le_length (h1 ▸ h2)
    simp only [List.getD_cons_zero, List.getD_cons_succ, List.length_cons] at *
    refine ⟨y, r, by rw [h4], h5, by omega, ?_, h6, h7, fun h => h8 (by omega), fun h => h9 (by omega), fun i => ?_⟩
    · rw [← h6]; omega
    · rw [h10 i]
      split
      · rw [show 4 + i.val = i.val + 2 + 1 + 1 by omega]; simp
      · rw [List.getD_eq_default]; omega
  · rintro ⟨T, r, rfl, h1, h2, h3, h4, h5, h6, h7, h8⟩
    simp only [ParseRegs.RepData, List.getD_cons_zero, List.getD_cons_succ, List.length_cons]
    refine ⟨by omega, by omega, by rw [h4]; omega, trivial, h1, h4, h5, fun h => h6 (by omega), fun h => h7 (by omega), fun i => ?_⟩
    rw [h8 i]
    split
    · rw [show 4 + i.val = i.val + 2 + 1 + 1 by omega]; simp
    · rw [List.getD_eq_default]; omega

/-- The four forms of a coherent state (R37, R52). -/
theorem State.coherent_iff (s : State) :
    s.coherent = true ↔
      (s.parse.st = .hunt ∧ s.parse.pos = 0 ∧ s.buf = []) ∨
      (s.parse.st = .start ∧ s.parse.pos = 1 ∧ s.buf = [startByte]) ∨
      (s.parse.st = .cmd ∧ s.parse.RepCmd s.buf) ∨
      (s.parse.st = .data ∧ s.parse.RepData s.cfg.mask s.buf) := by
  cases hst : s.parse.st <;> simp only [State.coherent, ParseRegs.legal, ParseRegs.rep, hst, Bool.and_eq_true, decide_eq_true_eq,
    reduceCtorEq, false_and, true_and, false_or, or_false]
  · constructor
    · rintro ⟨-, h⟩; exact h
    · intro h; exact ⟨⟨h.2.1, h.2.2.1⟩, h⟩
  · constructor
    · rintro ⟨-, h⟩; exact h
    · intro h
      refine ⟨⟨h.2.1, h.2.2.1, fun i hi => ?_⟩, h⟩
      rw [h.2.2.2.2.2.2.2.2.2 i, if_neg]
      have := h.2.2.1
      omega

/-- The represented buffer of a coherent state is undecided: its decoder waits (R109). -/
theorem State.decode_buf_of_coherent (s : State) (h : s.coherent = true) : ∃ why, decode s.cfg s.buf = .wait why := by
  rcases (State.coherent_iff s).1 h with ⟨-, -, hb⟩ | ⟨-, -, hb⟩ | ⟨-, hr⟩ | ⟨-, hr⟩
  · exact ⟨_, by rw [hb]; rfl⟩
  · exact ⟨_, by rw [hb]; rfl⟩
  · obtain ⟨r, hb, -, hr, -⟩ := (ParseRegs.repCmd_iff _ _).1 hr
    exact ⟨.shortCommand, by rw [hb, decode_cmdFrame, if_pos (by omega)]⟩
  · obtain ⟨T, r, hb, hT, -, hr, -⟩ := (ParseRegs.repData_iff _ _ _).1 hr
    exact ⟨.shortData, by rw [hb, decode_dataFrame _ hT, if_pos (by omega)]⟩

/-- The identifier registers once both bytes are in (R132, R133). -/
theorem wId_eq_identOf (id : BitVec 16) {lo hi : Byte} (h1 : identLo id = lo) (h2 : identHi id = hi) : id = identOf lo hi := by
  rw [← h1, ← h2, identOf_parts]

/-- The payload operand read from the register file (R134, R135). -/
theorem ParseRegs.payload_eq (p : ParseRegs) (r : List Byte) (hL : r.length = p.wLen.toNat + 2)
    (h : ∀ i : Fin 15, p.wPl[i] = r.getD (i.val + 2) 0) : p.payload = r.drop 2 := by
  have hw := p.wLen.isLt
  apply List.ext_getElem
  · simp [ParseRegs.payload, hL]; omega
  · intro i h1 h2
    simp [ParseRegs.payload] at h1 h2 ⊢
    have hi : i < 15 := by omega
    have := h ⟨i, hi⟩
    simp at this
    rw [this, List.getElem?_eq_getElem (by omega)]
    simp [Nat.add_comm]

/-- The byte rule that applies is the one of the decoded instruction: the register test of R200 and the decoder agree. -/
theorem State.spanInstr_of_decode_span (s : State) (b : Byte) (h : s.coherent = true) {i : Instr} {tail : List Byte}
    (hd : decode s.cfg (s.buf ++ [b]) = .span i tail) : s.spanInstr b = some i := by
  rcases (State.coherent_iff s).1 h with ⟨hs, -, hb⟩ | ⟨hs, -, hb⟩ | ⟨hs, hr⟩ | ⟨hs, hr⟩
  · rw [hb, List.nil_append] at hd
    by_cases hAA : b = startByte
    · simp [hAA] at hd
    · rw [decode_noStart _ hAA] at hd
      simp only [Decoded.span.injEq] at hd
      simp [State.spanInstr, hs, hAA, hd.1]
  · rw [hb] at hd
    simp only [List.cons_append, List.nil_append] at hd
    by_cases hc : b = cmdMark
    · rw [hc, decode_cmdFrame] at hd; simp at hd
    · cases hT : dataClass s.cfg.mask b
      · rw [decode_badType _ hc hT] at hd
        simp only [Decoded.span.injEq] at hd
        simp [State.spanInstr, hs, hc, hT, hd.1]
      · rw [decode_dataFrame _ hT] at hd; simp at hd
  · obtain ⟨r, hb, hp, hl, -⟩ := (ParseRegs.repCmd_iff _ _).1 hr
    rw [hb] at hd
    simp only [List.cons_append] at hd
    rw [decode_cmdFrame] at hd
    split at hd
    · cases hd
    · rename_i hlen
      simp only [List.length_append, List.length_cons, List.length_nil] at hlen
      have hlen : r.length = 17 := by omega
      have hpos : s.parse.pos = 19 := by apply BitVec.eq_of_toNat_eq; simp [hp, hlen]
      simp only [Decoded.span.injEq] at hd
      simp [State.spanInstr, hs, hpos, ← hd.1, hb, hlen]
  · obtain ⟨T, r, hb, hT, hp, hl, hL, hX, hlo, hhi, hpl⟩ := (ParseRegs.repData_iff _ _ _).1 hr
    rw [hb] at hd
    simp only [List.cons_append] at hd
    rw [decode_dataFrame _ hT] at hd
    split at hd
    · cases hd
    · rename_i hlen
      simp only [List.length_append, List.length_cons, List.length_nil] at hlen
      have hlen : r.length = (typeLen T).toNat + 2 := by omega
      have hid := wId_eq_identOf s.parse.wId (hlo (by omega)) (hhi (by omega))
      have hpay := ParseRegs.payload_eq s.parse r (by rw [hL]; exact hlen) hpl
      simp only [Decoded.span.injEq] at hd
      rw [← hd.1]
      simp [State.spanInstr, hs, hp, hL, hlen, hX, hb, hpay, hid]
      rw [List.drop_append_of_le_length (by omega), List.take_append_of_le_length (by simp; omega)]
      rw [List.take_of_length_le (by simp; omega)]

theorem checksum_append (r : List Byte) (b : Byte) : checksum (r ++ [b]) = checksum r + b := by
  simp [checksum, BitVec.ofNat_add]

theorem identHi_append (hi lo : Byte) : identHi (hi ++ lo) = hi := by
  apply BitVec.eq_of_getLsbD_eq; intro i h
  have := BitVec.getLsbD_append (x := hi) (y := lo) (i := 8 + i)
  simp only [identHi, BitVec.getLsbD_extractLsb', h, decide_true, Bool.true_and]
  exact this.trans (by simp)

theorem identLo_append (hi lo : Byte) : identLo (hi ++ lo) = lo := by
  apply BitVec.eq_of_getLsbD_eq; intro i h
  have := BitVec.getLsbD_append (x := hi) (y := lo) (i := i)
  simp only [identLo, BitVec.getLsbD_extractLsb', h, decide_true, Bool.true_and, Nat.zero_add]
  exact this.trans (by simp [h])

/-- A data-frame byte before the terminator keeps the representation (R132 to R134). -/
theorem ParseRegs.repData_dataByte (m : DataTypeMask) (p : ParseRegs) (B : List Byte) (b : Byte) (h : p.RepData m B)
    (hp : p.pos.toNat ≠ p.wLen.toNat + 4) : (p.dataByte b).RepData m (B ++ [b]) := by
  obtain ⟨T, r, rfl, hT, hpos, hl, hL, hX, hlo, hhi, hpl⟩ := (ParseRegs.repData_iff _ _ _).1 h
  have hlen : r.length < (typeLen T).toNat + 2 := by rw [hL] at hp; omega
  have hL15 := (typeLen T).isLt
  refine (ParseRegs.repData_iff _ _ _).2 ⟨T, r ++ [b], rfl, hT, ?_⟩
  have h2 : p.pos = 2 ↔ r.length = 0 := by rw [← BitVec.toNat_inj]; simp [hpos]
  have h3 : p.pos = 3 ↔ r.length = 1 := by rw [← BitVec.toNat_inj]; simp [hpos]
  by_cases c2 : r.length = 0
  · have hr : r = [] := List.length_eq_zero_iff.1 c2
    subst hr
    simp only [ParseRegs.dataByte, h2.2 c2, if_true]
    refine ⟨rfl, by simp, hL, hX, fun _ => by simp [identLo_append], fun h => by simp at h, fun i => ?_⟩
    simp [hpl i]
  · by_cases c3 : r.length = 1
    · obtain ⟨lo, rfl⟩ := List.length_eq_one_iff.1 c3
      rw [show p.dataByte b = p.idHigh b by simp [ParseRegs.dataByte, h3.2 c3]]
      refine ⟨rfl, by simp, hL, hX, fun _ => ?_, fun h => ?_, fun i => ?_⟩
      · simpa [identLo_append] using hlo (by simp)
      · simp [identHi_append]
      · simp [hpl i]
    · rw [show p.dataByte b = p.payloadByte b by rw [ParseRegs.dataByte, if_neg (mt h2.1 c2), if_neg (mt h3.1 c3)]]
      have hr2 : 2 ≤ r.length := by omega
      refine ⟨?_, by simp; omega, hL, hX, fun _ => ?_, fun h => ?_, fun i => ?_⟩
      · simp [BitVec.toNat_add, hpos]; omega
      · rw [List.getD_append _ _ _ _ (show 0 < r.length by omega)]; exact hlo (by omega)
      · rw [List.getD_append _ _ _ _ (show 1 < r.length by omega)]; exact hhi hr2
      · simp only [ParseRegs.payloadByte_wPl]
        by_cases hi : i.val + 2 = r.length
        · have : p.pos.toNat - 4 = i.val := by omega
          simp [this, hi]
        · have hne : p.pos.toNat - 4 ≠ i.val := by omega
          have := hpl i
          simp only [Fin.getElem_fin] at this ⊢
          rw [Vector.getElem_setIfInBounds_ne (h := hne), this]
          by_cases hlt : i.val + 2 < r.length
          · simp [List.getElem?_append_left hlt]
          · rw [List.getD_eq_default _ _ (by omega), List.getD_eq_default _ _ (by simp; omega)]

/-- A byte that completes no span leaves a coherent state (R112). -/
theorem State.coherent_acceptPrefix (s : State) (b : Byte) (h : s.coherent = true) (hn : s.spanInstr b = none) :
    (s.acceptPrefix b).coherent = true := by
  rw [State.coherent_iff]
  rcases (State.coherent_iff s).1 h with ⟨hs, -, hb⟩ | ⟨hs, -, hb⟩ | ⟨hs, hr⟩ | ⟨hs, hr⟩
  · have hAA : b = startByte := by
      by_contra hne; simp [State.spanInstr, hs, hne] at hn
    right; left
    simp [ParseRegs.advance, hs, hb, hAA]
  · by_cases hc : b = cmdMark
    · right; right; left
      refine ⟨by simp [ParseRegs.advance, hs, hc], (ParseRegs.repCmd_iff _ _).2 ⟨[], ?_⟩⟩
      simp [ParseRegs.advance, hs, hb, hc, checksum]
    · have hT : dataClass s.cfg.mask b = true := by
        by_contra hne; simp [State.spanInstr, hs, hc, hne] at hn
      right; right; right
      refine ⟨by simp [ParseRegs.advance, hs, hc], (ParseRegs.repData_iff _ _ _).2 ⟨b, [], ?_⟩⟩
      simp [ParseRegs.advance, hs, hb, hc, hT]
  · obtain ⟨r, hb, hp, hl, hcs⟩ := (ParseRegs.repCmd_iff _ _).1 hr
    have h19 : s.parse.pos ≠ 19 := by
      intro h19; simp [State.spanInstr, hs, h19] at hn
    have : s.parse.pos.toNat ≠ 19 := fun h => h19 (BitVec.eq_of_toNat_eq h)
    right; right; left
    refine ⟨by simp [ParseRegs.advance, hs], (ParseRegs.repCmd_iff _ _).2 ⟨r ++ [b], ?_⟩⟩
    simp [ParseRegs.advance, hs, hb, checksum_append, hcs, BitVec.toNat_add, hp]
    omega
  · have hp : s.parse.pos.toNat ≠ s.parse.wLen.toNat + 4 := by
      intro hp; simp [State.spanInstr, hs, hp] at hn
    right; right; right
    refine ⟨?_, by simpa [ParseRegs.advance, hs] using ParseRegs.repData_dataByte _ _ _ b hr hp⟩
    simp only [State.acceptPrefix_parse, ParseRegs.advance, hs, ParseRegs.dataByte]
    split_ifs <;> simp [hs]

/-- Where the decoder waits, no span completes. -/
theorem State.spanInstr_of_decode_wait (s : State) (b : Byte) (h : s.coherent = true) {why : WaitReason}
    (hd : decode s.cfg (s.buf ++ [b]) = .wait why) : s.spanInstr b = none := by
  rcases (State.coherent_iff s).1 h with ⟨hs, -, hb⟩ | ⟨hs, -, hb⟩ | ⟨hs, hr⟩ | ⟨hs, hr⟩
  · rw [hb, List.nil_append] at hd
    by_cases hAA : b = startByte
    · simp [State.spanInstr, hs, hAA]
    · rw [decode_noStart _ hAA] at hd; cases hd
  · rw [hb] at hd
    simp only [List.cons_append, List.nil_append] at hd
    by_cases hc : b = cmdMark
    · simp [State.spanInstr, hs, hc]
    · cases hT : dataClass s.cfg.mask b
      · rw [decode_badType _ hc hT] at hd; cases hd
      · simp [State.spanInstr, hs, hT]
  · obtain ⟨r, hb, hp, hl, -⟩ := (ParseRegs.repCmd_iff _ _).1 hr
    rw [hb] at hd
    simp only [List.cons_append] at hd
    rw [decode_cmdFrame] at hd
    split at hd
    · rename_i hlen
      simp only [List.length_append, List.length_cons, List.length_nil] at hlen
      have hpos : s.parse.pos ≠ 19 := by
        intro h19; rw [h19] at hp; simp at hp; omega
      simp only [State.spanInstr, hs, if_neg hpos]
    · cases hd
  · obtain ⟨T, r, hb, hT, hp, hl, hL, hX, hlo, hhi, hpl⟩ := (ParseRegs.repData_iff _ _ _).1 hr
    rw [hb] at hd
    simp only [List.cons_append] at hd
    rw [decode_dataFrame _ hT] at hd
    split at hd
    · rename_i hlen
      simp only [List.length_append, List.length_cons, List.length_nil] at hlen
      have : ¬ s.parse.pos.toNat = s.parse.wLen.toNat + 4 := by rw [hL]; omega
      simp [State.spanInstr, hs, this]
    · cases hd

end Sys2Proof.Machine
end

