-- ==== Sys2Proof/Laws/Step.lean ====
section
/-! SUPPORT. What a step can do: one equation per case of an edge, and the inversion lemma of `step`. -/

namespace Sys2Proof.Machine

/-- What the edge's byte rules see (R200): the state before its stimulus is dropped, ports sampled, `clear` and the output transfer applied. -/
theorem State.beginEdge_coherent (v : PortVector) (s : State) (h : s.coherent = true) : (s.beginEdge v).coherent = true := by
  rw [State.beginEdge_eq]
  cases hc : v.clear
  · simpa [State.coherent, State.bufAt, hc] using h
  · simp [State.coherent_iff, State.bufAt, hc]

/-- The coherence of a state does not depend on its stimulus. -/
@[simp] theorem State.coherent_pending (s : State) (p : List Stimulus) : ({ s with pending := p } : State).coherent = s.coherent := rfl

theorem step_reset (v : PortVector) (rest : List Stimulus) (s : State) (h : v.rst = true) :
    step (s.atEdge v rest) = .next (({ s with pending := rest } : State).resetBy v) := by
  simp [step, State.fetch, State.atEdge, State.edge, h]

theorem step_stuck (v : PortVector) (rest : List Stimulus) (s : State) (h : v.rst = false) (hc : s.coherent = false) :
    step (s.atEdge v rest) = .fault .stuck := by
  simp [step, State.fetch, State.atEdge, State.edge, h, hc]

theorem step_noByte (v : PortVector) (rest : List Stimulus) (s : State) (h : v.rst = false) (hc : s.coherent = true)
    (ha : s.accepts v = false) :
    step (s.atEdge v rest) = .next (({ s with pending := rest } : State).beginEdge v) := by
  have ha' : ({ s with pending := rest } : State).accepts v = false := ha
  simp [step, State.fetch, State.atEdge, State.edge, h, hc, ha']

/-- An accepted byte that completes a span runs its instruction. -/
theorem step_span (v : PortVector) (rest : List Stimulus) (s : State) (h : s.readyFor v) {i : Instr}
    (hi : (({ s with pending := rest } : State).beginEdge v).spanInstr v.inData = some i) :
    step (s.atEdge v rest) = exec i (({ s with pending := rest } : State).beginEdge v) := by
  obtain ⟨h1, h2, h3, h4⟩ := h
  have ha : ({ s with pending := rest } : State).accepts v = true := (State.accepts_eq_true _ _).2 ⟨h3, h4⟩
  simp [step, State.fetch, State.atEdge, State.edge, h1, h2, ha, State.acceptByte, hi]

/-- An accepted byte that completes none follows its prefix rule. -/
theorem step_prefix (v : PortVector) (rest : List Stimulus) (s : State) (h : s.readyFor v)
    (hi : (({ s with pending := rest } : State).beginEdge v).spanInstr v.inData = none) :
    step (s.atEdge v rest) = .next ((({ s with pending := rest } : State).beginEdge v).acceptPrefix v.inData) := by
  obtain ⟨h1, h2, h3, h4⟩ := h
  have ha : ({ s with pending := rest } : State).accepts v = true := (State.accepts_eq_true _ _).2 ⟨h3, h4⟩
  simp [step, State.fetch, State.atEdge, State.edge, h1, h2, ha, State.acceptByte, hi]

theorem step_drive (s : State) (bps : Bps) (rest : List Stimulus) :
    step { s with pending := .drive bps :: rest } = exec (.initCmd bps) { s with pending := rest } := rfl

/-- With no stimulus left the environment is idle (log 2). -/
theorem step_nil (s : State) (h : s.pending = []) : step s = step (s.atEdge .idle []) := by
  obtain ⟨cfg, parse, out, evt, buf, inp, bps, pend⟩ := s
  cases h
  rfl

/-- Every instruction completes (R230); the state it leaves, one case per constructor. -/
theorem exec_next (i : Instr) (s : State) :
    exec i s = .next (match i with
      | .noStart _ => s.signal .noStart
      | .badType t => (s.signal .badType).endSpan.examineHead t
      | .cmdFrame _ ck => ((s.signal .cmd).signalCkok ck).endSpan
      | .dataFrame ext _ id payload term =>
        if term = termByte then ((s.emit (dataFrameOf ext id payload)).signal .dataOk).endSpan else (s.signal .badTerm).endSpan
      | .initCmd bps => { s with speedBps := bps }) := by
  cases i <;> simp only [exec, execNoStart, execBadType, execCmdFrame, execInitCmd, execDataFrame]
  split <;> rfl

/-- What a span instruction of the state is, by parse state (R200). -/
theorem State.spanInstr_cases (s : State) (b : Byte) {i : Instr} (h : s.spanInstr b = some i) :
    (s.parse.st = .hunt ∧ b ≠ startByte ∧ i = .noStart b) ∨
    (s.parse.st = .start ∧ b ≠ cmdMark ∧ dataClass s.cfg.mask b = false ∧ i = .badType b) ∨
    (s.parse.st = .cmd ∧ s.parse.pos = 19 ∧ i = .cmdFrame (s.buf.drop 2) b) ∨
    (s.parse.st = .data ∧ s.parse.pos.toNat = s.parse.wLen.toNat + 4 ∧
      i = .dataFrame s.parse.wExt (typeRsv (s.buf.getD 1 0)) s.parse.wId s.parse.payload b) := by
  cases hs : s.parse.st <;> simp only [State.spanInstr, hs] at h <;> split at h <;> simp_all

/-- Everything a step can do: the move at the head of the stimulus is a change of `speed_bps`, or an edge that resets,
accepts nothing, accepts a byte of a span that goes on, or completes an instruction. -/
theorem step_cases {s t : State} (h : step s = .next t) :
    (∃ bps rest, s.pending = .drive bps :: rest ∧ t = { s with pending := rest, speedBps := bps }) ∨
    (∃ v rest, (s.pending = .edge v :: rest ∨ s.pending = [] ∧ v = .idle ∧ rest = []) ∧
      ((v.rst = true ∧ t = ({ s with pending := rest } : State).resetBy v) ∨
       (v.rst = false ∧ s.coherent = true ∧ s.accepts v = false ∧ t = ({ s with pending := rest } : State).beginEdge v) ∨
       (s.readyFor v ∧ (({ s with pending := rest } : State).beginEdge v).spanInstr v.inData = none ∧
        t = (({ s with pending := rest } : State).beginEdge v).acceptPrefix v.inData) ∨
       (s.readyFor v ∧ ∃ i, (({ s with pending := rest } : State).beginEdge v).spanInstr v.inData = some i ∧
        exec i (({ s with pending := rest } : State).beginEdge v) = .next t))) := by
  have key : ∀ v rest, step (s.atEdge v rest) = .next t →
      ((v.rst = true ∧ t = ({ s with pending := rest } : State).resetBy v) ∨
       (v.rst = false ∧ s.coherent = true ∧ s.accepts v = false ∧ t = ({ s with pending := rest } : State).beginEdge v) ∨
       (s.readyFor v ∧ (({ s with pending := rest } : State).beginEdge v).spanInstr v.inData = none ∧
        t = (({ s with pending := rest } : State).beginEdge v).acceptPrefix v.inData) ∨
       (s.readyFor v ∧ ∃ i, (({ s with pending := rest } : State).beginEdge v).spanInstr v.inData = some i ∧
        exec i (({ s with pending := rest } : State).beginEdge v) = .next t)) := by
    intro v rest h
    cases hr : v.rst
    · cases hc : s.coherent
      · rw [step_stuck v rest s hr hc] at h; cases h
      · cases ha : s.accepts v
        · rw [step_noByte v rest s hr hc ha] at h
          cases h
          exact .inr (.inl ⟨rfl, rfl, rfl, rfl⟩)
        · have hready : s.readyFor v := ⟨hr, hc, (State.accepts_eq_true _ _).1 ha⟩
          cases hi : (({ s with pending := rest } : State).beginEdge v).spanInstr v.inData with
          | none =>
            rw [step_prefix v rest s hready hi] at h
            cases h
            exact .inr (.inr (.inl ⟨by simpa [hr, hc] using hready, rfl, rfl⟩))
          | some i =>
            rw [step_span v rest s hready hi] at h
            exact .inr (.inr (.inr ⟨by simpa [hr, hc] using hready, i, rfl, h⟩))
    · rw [step_reset v rest s hr] at h
      cases h
      exact .inl ⟨rfl, rfl⟩
  obtain ⟨cfg, parse, out, evt, buf, inp, bps, pend⟩ := s
  match pend, h with
  | [], h => exact .inr ⟨.idle, [], .inr ⟨rfl, rfl, rfl⟩, key _ _ h⟩
  | .edge v :: rest, h => exact .inr ⟨v, rest, .inl rfl, key _ _ h⟩
  | .drive b :: rest, h =>
    cases h
    exact .inl ⟨b, rest, rfl, rfl⟩

end Sys2Proof.Machine
end

