-- ==== Sys2Proof/Tests/Slice0.lean ====
section
/-! SUPPORT. Tests: ill-formed terms refused, words written out from the spec's encodings, one step on vectors of
95_test_vectors.md, and for each statement with hypotheses a concrete case that meets them (the `test_hyps_` theorems). -/

namespace Sys2Proof.Tests

open Sys2Proof.Machine

/-- An edge that offers a byte. -/
def offer (b : Byte) : PortVector := { PortVector.idle with inValid := true, inData := b }

/-- The reset state after these bytes of an unfinished span. -/
def recv (bytes : List Byte) : State := bytes.foldl (fun s b => s.acceptPrefix b) State.reset

/-- The same with the frame port occupied. -/
def full (bytes : List Byte) : State := { recv bytes with out := { OutRegs.reset with valid := true, id := 0x0123 } }

/-- One step on an edge, and a check of the state it leaves. -/
def after (s : State) (v : PortVector) (p : State → Bool) : Bool :=
  match step (s.atEdge v []) with
  | .next t => p t
  | .fault _ => false
  | .refused _ => false

/-- The mask 0xF0. -/
def cfgF0 : Config := { Config.default with mask := .f0 }

/-! ### Well-formedness refuses (R71, R72, R74, R104, R105) -/

theorem test_wf_noStart_refuses_startByte : (Instr.noStart 0xAA).wellFormed .default = false := by decide
theorem test_wf_badType_refuses_cmdMark : (Instr.badType 0x55).wellFormed .default = false := by decide
theorem test_wf_badType_refuses_dataClass : (Instr.badType 0xC0).wellFormed .default = false := by decide
theorem test_wf_cmdFrame_refuses_short_body : (Instr.cmdFrame (List.replicate 16 0) 0).wellFormed .default = false := by decide
theorem test_wf_dataFrame_refuses_16_bytes :
    (Instr.dataFrame false false 0 (List.replicate 16 0) 0x55).wellFormed .default = false := by decide
theorem test_wf_dataFrame_refuses_ext_under_f0 : (Instr.dataFrame true false 0 [] 0x55).wellFormed cfgF0 = false := by decide
theorem test_wf_dataFrame_refuses_rsv_under_f0 : (Instr.dataFrame false true 0 [] 0x55).wellFormed cfgF0 = false := by decide
theorem test_wf_received_accepts :
    (Instr.noStart 0x55).wellFormed .default && (Instr.badType 0xAA).wellFormed .default &&
    (Instr.cmdFrame (List.replicate 17 0) 0).wellFormed .default &&
    (Instr.dataFrame true true 0xFFFF (List.replicate 15 0) 0x55).wellFormed .default && (Instr.initCmd 0).wellFormed .default := by
  decide

/-! ### Words written out from the encodings (R71 to R76) -/

/-- V-S2: a head byte other than 0xAA. -/
theorem test_decode_noStart : decode .default [0b01111111, 0xAA] = .span (.noStart 0x7F) [0xAA] := by decide

/-- V-S8: 0xAA then 0xBF, just below the data class; only the 0xAA is consumed. -/
theorem test_decode_badType : decode .default [0b10101010, 0b10111111] = .span (.badType 0xBF) [0xBF] := by decide

/-- V-C1: the 20 bytes of a command frame. -/
theorem test_decode_cmdFrame :
    decode .default [0b10101010, 0b01010101, 0x12, 3, 1, 0, 0, 0, 0, 0, 0, 0, 0, 0, 1, 0, 0, 0, 0, 0x17] =
      .span (.cmdFrame [0x12, 3, 1, 0, 0, 0, 0, 0, 0, 0, 0, 0, 1, 0, 0, 0, 0] 0x17) [] := by decide

/-- V-D4: class 11, X = 0, R = 1, L = 0011; identifier low byte first. -/
theorem test_decode_dataFrame :
    decode .default [0b10101010, 0b11010011, 0x01, 0x02, 0x0A, 0x0B, 0x0C, 0b01010101] =
      .span (.dataFrame false true 0x0201 [0x0A, 0x0B, 0x0C] 0x55) [] := by decide

/-- V-D3: under mask 0xF0 the type byte 0xE0 is a bad type (R77). -/
theorem test_decode_mask_f0 : decode cfgF0 [0xAA, 0b11100000, 0xFF, 0xFF, 0x55] = .span (.badType 0xE0) [0xE0, 0xFF, 0xFF, 0x55] := by
  decide

/-- V-E3: the init command for 500000 under the default table, and V-E13: 777 gives the same. -/
theorem test_encode_initCmd :
    encode .default (.initCmd 500000) = [0xAA, 0x55, 0x12, 3, 1, 0, 0, 0, 0, 0, 0, 0, 0, 0, 1, 0, 0, 0, 0, 0x17] ∧
    encode .default (.initCmd 777) = encode .default (.initCmd 500000) := by decide

/-- V-E12 and V-E15: the lowest key, and a near miss. -/
theorem test_speedCode : speedCode .default 5000 = 0x0C ∧ speedCode .default 499999 = 0x03 := by decide

/-! ### The reference function on the source's examples -/

/-- W6: the source's end-to-end example. -/
theorem test_decodeAll_W6 :
    decodeAll .c0 [0xAA, 0xC8, 0x23, 1, 1, 2, 3, 4, 5, 6, 7, 8, 0x55] =
      ([.dataOk { identifier := 0x0123, length := 8, payload := [1, 2, 3, 4, 5, 6, 7, 8], isExtended := false }], 13) := by decide

/-- V-D6: a bad terminator hides a real frame. -/
theorem test_decodeAll_VD6 :
    decodeAll .c0 [0xAA, 0xC2, 0x11, 0x22, 0xAA, 0xC0, 0x01, 0x02, 0x55] = ([.badTerm, .noStart, .noStart], 9) := by decide

/-! ### One step on the spec's vectors -/

/-- V-I1: from reset, 0xAA. -/
theorem test_step_VI1 : after .reset (offer 0xAA) (fun t => t.parse.st = .start && t.parse.pos = 1 && t.evt = 0) := by decide

/-- V-I2: the output register is full and the consumer not ready: nothing is accepted. -/
theorem test_step_VI2 : after (full []) (offer 0xAA) (fun t => t.out.valid && t.parse = ParseRegs.reset && t.evt = 0) := by decide

/-- V-I3: the frame is taken, the byte still not accepted. -/
theorem test_step_VI3 :
    after (full []) { offer 0xAA with outReady := true } (fun t => !t.out.valid && t.out.id = 0x0123 && t.parse = ParseRegs.reset) := by
  decide

/-- V-I5: `clear` and 0xAA at one edge (`st = DATA`, `pos = 5`). -/
theorem test_step_VI5 :
    after (recv [0xAA, 0xC3, 1, 2, 3]) { offer 0xAA with clear := true } (fun t => t.parse.st = .start && t.parse.pos = 1 && t.evt = 0) := by
  decide

/-- V-I7: `clear` keeps the output register. -/
theorem test_step_VI7 :
    after (full [0xAA, 0x55, 1, 2, 3, 4, 5]) { PortVector.idle with clear := true }
      (fun t => t.parse.st = .hunt && t.parse.pos = 0 && t.out.valid && t.out.id = 0x0123) := by decide

/-- V-S4 (NOSTART and BADTYPE at one edge): `AA 7F` leaves `evt_r = 0x03`. -/
theorem test_step_VS4 : after (recv [0xAA]) (offer 0x7F) (fun t => t.parse.st = .hunt && t.evt = 0x03) := by decide

/-- V-S10 (BADTYPE): `AA AA` stays in START, `evt_r = 0x02`. -/
theorem test_step_VS10 : after (recv [0xAA]) (offer 0xAA) (fun t => t.parse.st = .start && t.parse.pos = 1 && t.evt = 0x02) := by decide

/-- V-C1 (CMD_FRAME): the 20th byte of a good command frame leaves `evt_r = 0x0C`. -/
theorem test_step_VC1 :
    after (recv [0xAA, 0x55, 0x12, 3, 1, 0, 0, 0, 0, 0, 0, 0, 0, 0, 1, 0, 0, 0, 0]) (offer 0x17)
      (fun t => t.parse.st = .hunt && t.evt = 0x0C && !t.out.valid) := by decide

/-- V-C6 (CMD_FRAME): 17 bytes 0xFF sum to 0xEF modulo 256; a wrong last byte leaves `evt_r = 0x04`. -/
theorem test_step_VC6 :
    after (recv ([0xAA, 0x55] ++ List.replicate 17 0xFF)) (offer 0xEF) (fun t => t.evt = 0x0C) &&
    after (recv ([0xAA, 0x55] ++ List.replicate 17 0xFF)) (offer 0xEE) (fun t => t.evt = 0x04) := by decide

/-- V-D4 (DATA_FRAME): the emitted fields, unused lanes 0, and the time stamp of V-I9. -/
theorem test_step_VD4 :
    after (recv [0xAA, 0xD3, 0x01, 0x02, 0x0A, 0x0B, 0x0C]) { offer 0x55 with ts := 0x12345678 }
      (fun t => t.out.valid && t.out.id = 0x0201 && t.out.len = 3 && !t.out.ext && t.out.pl[2] = 0x0C && t.out.pl[3] = 0 &&
        t.out.ts = 0x12345678 && t.evt = 0x10) := by decide

/-- V-D5 (DATA_FRAME): a bad terminator writes no output register. -/
theorem test_step_VD5 :
    after (recv [0xAA, 0xC1, 0, 0, 0x99]) (offer 0x56) (fun t => t.out = OutRegs.reset && t.evt = 0x20 && t.parse.st = .hunt) := by decide

/-- V-I11 (INIT_CMD): `cmd` changes at once with `speed_bps`; lanes 3 and 19 under the default table. -/
theorem test_step_VI11 :
    (match step ({ State.reset with pending := [.drive 1000000] } : State) with
      | .next t => byteLane t.cmdPort 0 = 0xAA && byteLane t.cmdPort 3 = 0x01 && byteLane t.cmdPort 19 = 0x15 && t.parse = ParseRegs.reset
      | .fault _ => false
      | .refused _ => false : Bool) = true := by decide

/-- V-I8: reset overrides a waiting frame. -/
theorem test_step_VI8 :
    after (full [0xAA]) { offer 0x7F with rst := true, outReady := true } (fun t => t.out = OutRegs.reset && t.parse = ParseRegs.reset && t.evt = 0) := by
  decide

/-- The host's word is run by the very next step after reset. -/
theorem test_withFetchWord_runs :
    (match decodeTableWord 16 0xAA55, step (State.reset.withFetchWord 16 0xAA55) with
      | some (.cmdFrame _ _), .next t => t.evt = 0x0C
      | _, _ => false : Bool) = true := by decide

/-! ### The hypotheses of the statements can be met -/

theorem test_hyps_reset : ({ offer 0xAA with rst := true } : PortVector).rst = true := by decide
theorem test_hyps_noStart : (0x55 : Byte) ≠ 0xAA ∧ (0xAB : Byte) ≠ 0xAA := by decide
theorem test_hyps_badType : ∀ t ∈ ([0xAA, 0x54, 0x56, 0xBF, 0x00] : List Byte), t ≠ 0x55 ∧ dataClass .c0 t = false := by decide
theorem test_hyps_badType_f0 : ∀ t ∈ ([0xD0, 0xFF] : List Byte), t ≠ 0x55 ∧ dataClass .f0 t = false := by decide
theorem test_hyps_dataFrame_payload : ([] : List Byte).length ≤ 15 ∧ (List.replicate 15 (1 : Byte)).length ≤ 15 := by decide
theorem test_hyps_badTerm : (0x54 : Byte) ≠ 0x55 ∧ (0x56 : Byte) ≠ 0x55 := by decide
theorem test_hyps_exec_next : exec (.noStart 0) .reset = .next { State.reset with evt := 1 } := rfl
theorem test_hyps_frame_other : ∀ ext rsv id payload, Instr.dataFrame false false 0 [] 0x56 ≠ .dataFrame ext rsv id payload 0x55 := by simp

theorem test_hyps_hunt : ∀ b ∈ ([0xAA, 0x7F] : List Byte),
    State.reset.readyFor (offer b) ∧ (offer b).clear = false ∧ State.reset.parse.st = .hunt := by decide
theorem test_hyps_start : ∀ b ∈ ([0x55, 0xC0, 0xFF, 0xAA, 0xBF] : List Byte),
    (recv [0xAA]).readyFor (offer b) ∧ (offer b).clear = false ∧ (recv [0xAA]).parse.st = .start := by decide
/-- `pos` = 2, 3, 4. -/
theorem test_hyps_dataByte :
    ∀ bs ∈ ([[0xAA, 0xC1], [0xAA, 0xC1, 1], [0xAA, 0xC1, 1, 2]] : List (List Byte)),
      (recv bs).readyFor (offer 9) ∧ (recv bs).parse.st = .data ∧ (recv bs).parse.pos.toNat < (recv bs).parse.wLen.toNat + 4 := by decide
/-- The last payload byte of the longest frame, `pos` = 18. -/
theorem test_hyps_dataByte_last :
    (recv ([0xAA, 0xCF] ++ List.replicate 16 1)).readyFor (offer 9) ∧ (recv ([0xAA, 0xCF] ++ List.replicate 16 1)).parse.st = .data := by
  decide
theorem test_hyps_dataByte_last_pos :
    (recv ([0xAA, 0xCF] ++ List.replicate 16 1)).parse.pos = 18 ∧ (recv ([0xAA, 0xCF] ++ List.replicate 16 1)).parse.wLen = 15 := by
  decide
/-- The terminator of the shortest and of the longest frame. -/
theorem test_hyps_terminator : ∀ b ∈ ([0x55, 0x56] : List Byte),
    (recv [0xAA, 0xE0, 1, 2]).readyFor (offer b) ∧ (recv [0xAA, 0xE0, 1, 2]).parse.st = .data := by decide
theorem test_hyps_terminator_last :
    (recv ([0xAA, 0xCF] ++ List.replicate 17 1)).readyFor (offer 0x55) ∧ (recv ([0xAA, 0xCF] ++ List.replicate 17 1)).parse.st = .data := by
  decide
theorem test_hyps_terminator_shortest :
    (recv [0xAA, 0xE0, 1, 2]).parse.pos = 4 ∧ (recv [0xAA, 0xE0, 1, 2]).parse.wLen = 0 := by decide
theorem test_hyps_terminator_longest :
    (recv ([0xAA, 0xCF] ++ List.replicate 17 1)).parse.pos = 19 ∧ (recv ([0xAA, 0xCF] ++ List.replicate 17 1)).parse.wLen = 15 := by
  decide
/-- The first body byte, the last body byte (`pos` = 18) and the checksum byte (`pos` = 19). -/
theorem test_hyps_cmdByte :
    ∀ bs ∈ ([[0xAA, 0x55], [0xAA, 0x55] ++ List.replicate 16 2, [0xAA, 0x55] ++ List.replicate 17 2] : List (List Byte)),
      (recv bs).readyFor (offer 0x22) ∧ (recv bs).parse.st = .cmd := by decide
theorem test_hyps_cmdByte_last :
    (recv ([0xAA, 0x55] ++ List.replicate 16 2)).parse.pos.toNat < 19 ∧
    ¬ (recv ([0xAA, 0x55] ++ List.replicate 17 2)).parse.pos.toNat < 19 := by decide

theorem test_hyps_stepRuns :
    (recv [0xAA, 0xC0, 1, 2]).readyFor (offer 0x55) ∧
    decode .default ((recv [0xAA, 0xC0, 1, 2]).bufAt (offer 0x55) ++ [0x55]) = .span (.dataFrame false false 0x0201 [] 0x55) [] := by decide
theorem test_hyps_stepRuns_after_clear :
    (recv [0xAA, 0xC0, 1, 2]).readyFor { offer 0x55 with clear := true } ∧
    decode .default ((recv [0xAA, 0xC0, 1, 2]).bufAt { offer 0x55 with clear := true } ++ [0x55]) = .span (.noStart 0x55) [] := by decide
theorem test_hyps_undecided :
    State.reset.readyFor (offer 0xAA) ∧ decode .default (State.reset.bufAt (offer 0xAA) ++ [0xAA]) = .wait .loneStart := by decide
theorem test_hyps_clear : (recv [0xAA, 0xC0]).coherent = true ∧ (full [0xAA, 0xC0]).coherent = true := by decide
theorem test_hyps_full : (full [0xAA]).coherent = true ∧ (full [0xAA]).out.valid = true := by decide
theorem test_hyps_idle :
    (recv [0xAA]).coherent = true ∧ ((recv [0xAA]).out.valid = false ∨ PortVector.idle.outReady = false) ∧ State.reset.pending = [] := by decide
theorem test_hyps_idle_full : (full [0xAA]).coherent = true ∧ PortVector.idle.outReady = false := by decide
/-- An edge of each kind that R235 tells apart: no byte, an undecided byte, one outcome, the pair. -/
theorem test_hyps_oneEdge :
    after .reset .idle (fun t => t.signalled = []) && after .reset (offer 0xAA) (fun t => t.signalled = []) &&
    after .reset (offer 0) (fun t => t.signalled = [.noStart]) && after (recv [0xAA]) (offer 0) (fun t => t.signalled = [.badType, .noStart]) := by
  decide
theorem test_hyps_outputChanges :
    after .reset (offer 0xAA) (fun t => !t.signals .dataOk) && after (recv [0xAA, 0xC0, 1, 2]) (offer 0x55) (fun t => t.signals .dataOk) := by
  decide
theorem test_hyps_step_next : ∃ t, step State.reset = .next t := ⟨_, rfl⟩
theorem test_hyps_cmdPort : (full [0xAA]).cfg.speedCodes = State.reset.cfg.speedCodes ∧ (full [0xAA]).speedBps = State.reset.speedBps := by decide
theorem test_hyps_typeBitFour :
    (recv [0xAA]).readyFor (offer 0xEF) ∧ (recv [0xAA]).parse.st = .start ∧ (recv [0xAA]).cfg.mask = .c0 ∧ dataClass .c0 0xEF = true := by decide

/-- A state inside the invariant with a partial span. -/
theorem test_hyps_inv : (recv [0xAA, 0xC1, 1]).Inv := ⟨by decide, by decide, by decide, by decide, by decide⟩
theorem test_hyps_inv_step : ∃ t, step (recv [0xAA, 0xC1, 1]) = .next t := ⟨_, rfl⟩
theorem test_hyps_reachable : Config.default.legal ∧
    ∃ t, Host.Core.run Sys2Proof.core 2 { State.resetWith .default with pending := [.edge (offer 0xAA)] } = .next t :=
  ⟨by decide, _, rfl⟩
theorem test_hyps_illegal : ({ ParseRegs.reset with st := .cmd, pos := 20 } : ParseRegs).legal = false := by decide
theorem test_hyps_accepted : (recv [0xAA]).readyFor (offer 0x7F) ∧ (recv [0xAA]).readyFor { offer 0xAA with clear := true } := by decide
theorem test_hyps_reference_empty :
    (full []).buf = [] ∧ noReset [offer 0xAA, offer 0x7F] ∧ noClear ([offer 0xAA, offer 0x7F].drop 1) := by
  simp [full, recv, State.reset, noReset, noClear, offer, PortVector.idle]
theorem test_hyps_reference_cleared :
    noReset [{ offer 0xAA with clear := true }, offer 0x7F] ∧ noClear ([{ offer 0xAA with clear := true }, offer 0x7F].drop 1) ∧
    ({ offer 0xAA with clear := true } : PortVector).clear = true := by
  simp [noReset, noClear, offer, PortVector.idle]
theorem test_hyps_observation : cfgF0.legal ∧ noReset [{ offer 0xAA with clear := true }, offer 0xC0] := by
  simp [cfgF0, Config.default, Config.legal, noReset, offer, PortVector.idle]
theorem test_hyps_holding :
    Config.default.legal ∧ (∀ y ∈ [(true, 1), (true, 2)], y.1 = true) ∧ 2 * ([0x7F] : List Byte).length ≤ [(true, 1), (true, 2)].length := by
  decide
theorem test_hyps_dataFrame_bytes :
    State.reset.buf = [] ∧ State.reset.out.valid = false ∧
    Instr.wellFormed State.reset.cfg (.dataFrame true false 0x0123 [7] 0x55) = true ∧
    offersBytes ([offer 0xAA, offer 0xE1, offer 0x23, offer 0x01, offer 7] ++ [offer 0x55])
      (encode State.reset.cfg (.dataFrame true false 0x0123 [7] 0x55)) :=
  ⟨rfl, rfl, by decide, by decide, by simp [offer, PortVector.idle]⟩
theorem test_hyps_cmdFrame_bytes :
    (List.replicate 17 (0 : Byte)).length = 17 ∧
    offersBytes ([offer 0xAA, offer 0x55] ++ List.replicate 18 (offer 0)) (encode State.reset.cfg (.cmdFrame (List.replicate 17 0) 0)) :=
  ⟨rfl, by decide, by simp [offer, PortVector.idle]⟩

theorem test_hyps_decodeStep :
    decodeStep .c0 [0xAA, 0x7F] = .consume 1 .badType ∧ decodeStep .c0 [0xAA, 0xC0, 1, 2] = .wait ∧
    decodeStep .c0 [0xAA, 0x55, 0] = .wait ∧ decodeStep .c0 [] = .wait ∧ decodeStep .c0 [0xAA] = .wait := by decide
theorem test_hyps_retained : undecided .c0 [0x7F, 0xAA, 0xC0, 1, 2] = [0xAA, 0xC0, 1, 2] ∧ dataClass .c0 0xC0 = true := by decide
theorem test_hyps_noStartByte : (0xAA : Byte) ∉ ([0x00, 0x7F, 0xC8, 0x55, 0xFF] : List Byte) := by decide
theorem test_hyps_stray :
    Instr.wellFormed .default (.dataFrame true true 0xFFFF (List.replicate 15 0xAA) 0x55) = true ∧
    Instr.wellFormed cfgF0 (.dataFrame false false 0 [] 0x55) = true := by decide
theorem test_hyps_dataSpan :
    decodeStep .c0 [0xAA, 0xC0, 0, 0, 0x55] = .consume 5 (.dataOk { identifier := 0, length := 0, payload := [], isExtended := false }) ∧
    decodeStep .c0 [0xAA, 0xC0, 0, 0, 0x56] = .consume 5 .badTerm := by decide
theorem test_hyps_roundTrip :
    (Instr.badType 0x54).received = true ∧ (Instr.badType 0x54).wellFormed .default = true ∧
    (Instr.cmdFrame (List.replicate 17 0xFF) 0xEF).wellFormed .default = true := by decide
theorem test_hyps_decoded : decode .default [0xAA, 0x54] = .span (.badType 0x54) [0x54] ∧ decode .default [0xAA] = .wait .loneStart := by decide
theorem test_hyps_dataClass_f0 : dataClass .f0 0xC0 = true ∧ dataClass .f0 0xCF = true ∧ (0xC0 : Byte).toNat ≥ 0xC0 := by decide
theorem test_hyps_speedCode : SpeedTable.default.code? 1000000 = some 0x01 ∧ SpeedTable.default.code? 777 = none := by decide

end Sys2Proof.Tests
end

section
/-! The parameters (R7) are fixed before the first edge (R39, R65): no shared operation, no instruction and no step moves them. -/

namespace Sys2Proof.Machine

@[simp] theorem State.beginEdge_cfg (v : PortVector) (s : State) : (s.beginEdge v).cfg = s.cfg := by
  rw [State.beginEdge_eq]

@[simp] theorem State.signalCkok_cfg (ck : Byte) (s : State) : (s.signalCkok ck).cfg = s.cfg := by
  rw [State.signalCkok_eq]

@[simp] theorem State.examineHead_cfg (b : Byte) (s : State) : (s.examineHead b).cfg = s.cfg := by
  rw [State.examineHead_eq]
  split
  · rfl
  · exact State.signal_cfg .noStart s

/-- The frame of every instruction on the parameters. -/
theorem exec_cfg {i : Instr} {s t : State} (h : exec i s = .next t) : t.cfg = s.cfg := by
  rw [exec_next] at h
  cases h
  cases i with
  | noStart b => simp
  | badType b => simp
  | cmdFrame body ck => simp
  | dataFrame ext rsv id payload term => dsimp only; split <;> simp
  | initCmd bps => rfl

/-- Settles O23, over the cases of a step (`step_cases`): the environment's move, a reset edge, an edge with no byte, a byte
of a span that goes on, and a completed instruction (`exec_cfg`). -/
theorem parametersNeverChange : Obligations.ParametersNeverChange := by
  intro s t h
  obtain ⟨bps, rest, -, rfl⟩ | ⟨v, rest, -, hedge⟩ := step_cases h
  · rfl
  · obtain ⟨-, rfl⟩ | ⟨-, -, -, rfl⟩ | ⟨-, -, rfl⟩ | ⟨-, i, -, hexec⟩ := hedge
    · exact State.resetBy_cfg v _
    · exact State.beginEdge_cfg v _
    · exact (State.acceptPrefix_cfg v.inData _).trans (State.beginEdge_cfg v _)
    · exact (exec_cfg hexec).trans (State.beginEdge_cfg v _)

end Sys2Proof.Machine
end

section
/-! The invariant: it holds wherever the registers have their reset values (R42), and every move of a step keeps it. -/

namespace Sys2Proof.Machine

/-! ### The output register: lanes and time stamp -/

theorem OutRegs.lanesClear_reset : OutRegs.reset.lanesClear := fun i _ => by simp [OutRegs.reset]

/-- The lanes past the payload of an emitted frame are 0 (R33): a payload of at most 15 bytes has a length the 4 bits of
`o_len` hold. -/
theorem OutRegs.lanesClear_emit (ext : Bool) (id : BitVec 16) (ts : Nat) {payload : List Byte} (h : payload.length ≤ 15) :
    (OutRegs.emit (dataFrameOf ext id payload) ts).lanesClear := by
  intro i hi
  have hlen : (OutRegs.emit (dataFrameOf ext id payload) ts).len.toNat = payload.length :=
    Nat.mod_eq_of_lt (show payload.length < 2 ^ 4 by omega)
  rw [hlen] at hi
  rw [OutRegs.emit_pl, getElem_padPayload]
  exact List.getD_eq_default _ _ hi

/-- The sampled stamp fits the `TS_W` wires (R34). -/
theorem State.sampledTs_lt (s : State) : s.sampledTs < 2 ^ s.cfg.tsW := Nat.mod_lt _ (Nat.two_pow_pos _)

/-- The payload operand is cut from the 15 lanes of `w_pl` (R29). -/
theorem ParseRegs.length_payload_le (p : ParseRegs) : p.payload.length ≤ 15 := by
  simp [ParseRegs.payload]

/-! ### What keeps a state coherent -/

@[simp] theorem State.coherent_signal (e : Evt) (s : State) : (s.signal e).coherent = s.coherent := rfl

@[simp] theorem State.coherent_endSpan (s : State) : s.endSpan.coherent = true := by
  simp [State.coherent_iff]

theorem State.coherent_examineHead (b : Byte) {s : State} (h : s.coherent = true) : (s.examineHead b).coherent = true := by
  rw [State.examineHead_eq]
  split
  case isTrue hb => simp [State.coherent_iff, hb]
  case isFalse => exact h

/-- An instruction whose span an accepted byte completes leaves a coherent state. -/
theorem exec_coherent {i : Instr} {s t : State} {b : Byte} (hc : s.coherent = true) (hi : s.spanInstr b = some i)
    (h : exec i s = .next t) : t.coherent = true := by
  rw [exec_next] at h
  cases h
  obtain ⟨-, -, rfl⟩ | ⟨-, -, -, rfl⟩ | ⟨-, -, rfl⟩ | ⟨-, -, rfl⟩ := State.spanInstr_cases s b hi
  · exact hc
  · exact State.coherent_examineHead b (State.coherent_endSpan _)
  · exact State.coherent_endSpan _
  · dsimp only; split <;> exact State.coherent_endSpan _

/-! ### What an instruction leaves in the output register and in the event vector -/

@[simp] theorem State.examineHead_out (b : Byte) (s : State) : (s.examineHead b).out = s.out := by
  rw [State.examineHead_eq]; split <;> rfl

@[simp] theorem State.signalCkok_out (ck : Byte) (s : State) : (s.signalCkok ck).out = s.out := by
  rw [State.signalCkok_eq]

/-- Only a data frame with the good terminator writes the output register (R135, R136, R164). -/
theorem exec_out {i : Instr} {s t : State} (h : exec i s = .next t) :
    t.out = s.out ∨ ∃ ext rsv id payload, i = .dataFrame ext rsv id payload termByte ∧
      t.out = OutRegs.emit (dataFrameOf ext id payload) s.sampledTs := by
  rw [exec_next] at h
  cases h
  cases i with
  | noStart b => simp
  | badType b => simp
  | cmdFrame body ck => simp
  | dataFrame ext rsv id payload term =>
    by_cases ht : term = termByte
    · right; exact ⟨ext, rsv, id, payload, by rw [ht], by simp [ht]⟩
    · left; simp [ht]
  | initCmd bps => simp

/-- From an empty event vector an instruction leaves one of the vectors of R206: BADTYPE comes alone or with NOSTART,
`CMD_CKOK` only with CMD. -/
theorem exec_evtLegal {i : Instr} {s t : State} (he : s.evt = 0) (h : exec i s = .next t) : evtLegal t.evt := by
  rw [exec_next] at h
  cases h
  cases i with
  | noStart b => simp [he, Evt.bit]
  | badType b =>
    by_cases hb : b = startByte <;> simp [State.examineHead_eq, hb, he, Evt.bit]
  | cmdFrame body ck =>
    by_cases hk : ck = s.parse.csum <;> simp [State.signalCkok_eq, hk, he, Evt.bit]
  | dataFrame ext rsv id payload term =>
    by_cases ht : term = termByte <;> simp [ht, he, Evt.bit]
  | initCmd bps => simp [he]

/-! ### The invariant, move by move -/

/-- The invariant holds wherever the registers have the values of R42 under legal parameters. -/
theorem State.inv_of_resetValues {s : State} (hp : s.parse = .reset) (ho : s.out = .reset) (he : s.evt = 0)
    (hb : s.buf = []) (hc : s.cfg.legal) : s.Inv where
  coherent := (State.coherent_iff s).2 (.inl ⟨by rw [hp]; rfl, by rw [hp]; rfl, hb⟩)
  legalCfg := hc
  tsFits := by rw [ho]; exact Nat.two_pow_pos _
  lanes := ho ▸ OutRegs.lanesClear_reset
  events := by simp [he]

/-- The invariant speaks of registers and parameters only: neither `speed_bps` nor the stimulus matters. -/
theorem State.Inv.withEnvironment {s : State} (h : s.Inv) (bps : Bps) (rest : List Stimulus) :
    ({ s with speedBps := bps, pending := rest } : State).Inv :=
  ⟨h.coherent, h.legalCfg, h.tsFits, h.lanes, h.events⟩

theorem State.Inv.resetBy {s : State} (h : s.Inv) (v : PortVector) : (s.resetBy v).Inv :=
  State.inv_of_resetValues rfl rfl rfl rfl h.legalCfg

@[simp] theorem State.beginEdge_evt (v : PortVector) (s : State) : (s.beginEdge v).evt = 0 := by
  rw [State.beginEdge_eq]

theorem State.Inv.beginEdge {s : State} (h : s.Inv) (v : PortVector) : (s.beginEdge v).Inv where
  coherent := State.beginEdge_coherent v s h.coherent
  legalCfg := (State.beginEdge_cfg v s).symm ▸ h.legalCfg
  tsFits := by rw [State.beginEdge_eq]; exact h.tsFits
  lanes := by rw [State.beginEdge_eq]; exact h.lanes
  events := by simp

theorem State.Inv.acceptPrefix {s : State} (h : s.Inv) {b : Byte} (hn : s.spanInstr b = none) : (s.acceptPrefix b).Inv :=
  ⟨State.coherent_acceptPrefix s b h.coherent hn, h.legalCfg, h.tsFits, h.lanes, h.events⟩

/-- A completed instruction keeps the invariant; the edge has emptied the event vector before it (R205). -/
theorem State.Inv.of_exec {s t : State} (h : s.Inv) (he : s.evt = 0) {b : Byte} {i : Instr} (hi : s.spanInstr b = some i)
    (hexec : exec i s = .next t) : t.Inv := by
  have hcfg : t.cfg = s.cfg := exec_cfg hexec
  have hout : t.out.ts < 2 ^ s.cfg.tsW ∧ t.out.lanesClear := by
    obtain hsame | ⟨ext, rsv, id, payload, rfl, hemit⟩ := exec_out hexec
    · rw [hsame]; exact ⟨h.tsFits, h.lanes⟩
    · have hpay : payload = s.parse.payload := by
        obtain ⟨-, -, hi⟩ | ⟨-, -, -, hi⟩ | ⟨-, -, hi⟩ | ⟨-, -, hi⟩ := State.spanInstr_cases s b hi <;> cases hi
        rfl
      rw [hemit]
      exact ⟨s.sampledTs_lt, OutRegs.lanesClear_emit ext id _ (hpay ▸ s.parse.length_payload_le)⟩
  exact ⟨exec_coherent h.coherent hi hexec, hcfg ▸ h.legalCfg, hcfg ▸ hout.1, hout.2, exec_evtLegal he hexec⟩

/-- Settles O27, over the cases of a step (`step_cases`): the environment's move, a reset edge, an edge with no byte, a byte
of a span that goes on, and a completed instruction. -/
theorem stepKeepsTheInvariant : Obligations.StepKeepsTheInvariant := by
  intro s t hI h
  obtain ⟨bps, rest, -, rfl⟩ | ⟨v, rest, -, hedge⟩ := step_cases h
  · exact hI.withEnvironment bps rest
  · have hI' := hI.withEnvironment s.speedBps rest
    obtain ⟨-, rfl⟩ | ⟨-, -, -, rfl⟩ | ⟨-, hn, rfl⟩ | ⟨-, i, hi, hexec⟩ := hedge
    · exact hI'.resetBy v
    · exact hI'.beginEdge v
    · exact (hI'.beginEdge v).acceptPrefix hn
    · exact (hI'.beginEdge v).of_exec (State.beginEdge_evt v _) hi hexec

/-! ### Reachable states -/

/-- What every step of a machine keeps holds after any run. -/
theorem run_keeps (M : Host.Core) (P : M.State → Prop) (hstep : ∀ s t, P s → M.step s = .next t → P t) :
    ∀ (n : Nat) (s t : M.State), P s → M.run n s = .next t → P t
  | 0, s, t, hs, h => by cases h; exact hs
  | n + 1, s, t, hs, h => by
    rw [Host.Core.run] at h
    cases hnext : M.step s with
    | next u => rw [hnext] at h; exact run_keeps M P hstep n u t (hstep s u hs hnext) h
    | fault r => rw [hnext] at h; cases h
    | refused r => rw [hnext] at h; cases h

theorem State.Inv.of_run {s t : State} (h : s.Inv) {n : Nat} (hrun : Host.Core.run Sys2Proof.core n s = .next t) : t.Inv :=
  run_keeps Sys2Proof.core State.Inv stepKeepsTheInvariant n s t h hrun

theorem State.inv_resetWith {c : Config} (h : c.legal) : (State.resetWith c).Inv :=
  State.inv_of_resetValues rfl rfl rfl rfl h

/-- The lines of R37 on the parse registers, as the spec lists them. -/
theorem ParseRegs.legal_iff (p : ParseRegs) :
    p.legal = true ↔
      (p.st = .hunt → p.pos.toNat = 0) ∧ (p.st = .start → p.pos.toNat = 1) ∧
      (p.st = .cmd → 2 ≤ p.pos.toNat ∧ p.pos.toNat ≤ 19) ∧
      (p.st = .data → 2 ≤ p.pos.toNat ∧ p.pos.toNat ≤ p.wLen.toNat + 4) ∧
      (p.st = .data → ∀ i : Fin 15, (p.wLen.toNat ≤ i.val ∨ p.pos.toNat ≤ 4 + i.val) → p.wPl[i] = 0) := by
  cases hst : p.st with
  | hunt => simp [ParseRegs.legal, hst, ← BitVec.toNat_inj]
  | start => simp [ParseRegs.legal, hst, ← BitVec.toNat_inj]
  | cmd => simp [ParseRegs.legal, hst]
  | data => simp [ParseRegs.legal, hst, and_assoc]

theorem State.legal_of_coherent {s : State} (h : s.coherent = true) : s.parse.legal = true :=
  (Bool.and_eq_true_iff.1 h).1

theorem State.inReady_of_valid {s : State} (h : s.out.valid = true) : s.inReady = false := by
  simp [State.inReady, h]

/-- Settles O28: the invariant holds at reset and after any run (`State.Inv.of_run`), and its coherence contains R37; a state
outside R37 is not coherent, so an edge without `rst` is stuck (`step_stuck`). -/
theorem reachableStatesSatisfyR37 : Obligations.ReachableStatesSatisfyR37 := by
  constructor
  · intro c p n t hc hrun
    have hreset := (State.inv_resetWith hc).withEnvironment (State.resetWith c).speedBps p
    have ht : t.Inv := hreset.of_run hrun
    obtain ⟨hhunt, hstart, hcmd, hdata, hlanes⟩ := (ParseRegs.legal_iff t.parse).1 (State.legal_of_coherent ht.coherent)
    exact ⟨hhunt, hstart, hcmd, hdata, hlanes, State.inReady_of_valid⟩
  · intro s v rest hr hillegal
    have hc : s.coherent = false := by simp [State.coherent, hillegal]
    exact step_stuck v rest s hr hc

/-- Settles O2: both are states with the reset values of R42 under legal parameters. -/
theorem invariantHoldsAtReset : Obligations.InvariantHoldsAtReset :=
  ⟨State.inv_of_resetValues rfl rfl rfl rfl (by decide), fun _ => State.inv_resetWith⟩

/-- Settles O1: a reset edge answers `resetBy` in every state (`step_reset`). -/
theorem resetEdgeSetsEveryRegister : Obligations.ResetEdgeSetsEveryRegister := by
  intro s v rest hv
  refine ⟨_, step_reset v rest s hv, ?_⟩
  simp [ParseRegs.reset, OutRegs.reset]

end Sys2Proof.Machine
end

section
/-! The flat ports (R22, R55): a lane of a packed byte sequence is its byte. -/

namespace Sys2Proof.Machine

/-- The packed bytes are the base-256 digits of the port. -/
theorem packLow_eq_ofDigits (n : Nat) (bytes : List Byte) :
    packLow n bytes = BitVec.ofNat (8 * n) (Nat.ofDigits 256 (bytes.map BitVec.toNat)) := by
  simp [packLow, Nat.ofDigits_eq_foldr, List.foldr_map]

/-- The digit of weight `256 ^ i` is byte `i`. -/
theorem ofDigits_div_pow_mod (bytes : List Byte) (i : Nat) :
    Nat.ofDigits 256 (bytes.map BitVec.toNat) / 256 ^ i % 256 = (bytes.getD i 0).toNat := by
  rw [Nat.ofDigits_div_pow_eq_ofDigits_drop i (by decide) _ (by simp; omega), ← List.map_drop]
  by_cases hi : i < bytes.length
  · rw [List.drop_eq_getElem_cons hi, List.map_cons, Nat.ofDigits_cons, List.getD_eq_getElem _ _ hi]
    simpa using bytes[i].isLt
  · rw [List.drop_eq_nil_of_le (by omega), List.getD_eq_default _ _ (by omega)]
    simp

/-- A lane inside the port is the byte at its place (R55). -/
theorem byteLane_packLow {n i : Nat} (bytes : List Byte) (h : i < n) : byteLane (packLow n bytes) i = bytes.getD i 0 := by
  apply BitVec.eq_of_toNat_eq
  rw [← ofDigits_div_pow_mod, packLow_eq_ofDigits]
  have hpow : ∀ k, 2 ^ (8 * k) = 256 ^ k := fun k => pow_mul 2 8 k
  have hn : 256 ^ n = 256 ^ i * (256 * 256 ^ (n - i - 1)) := by
    rw [← pow_succ', ← pow_add]; congr 1; omega
  simp only [byteLane, BitVec.extractLsb'_toNat, BitVec.toNat_ofNat, Nat.shiftRight_eq_div_pow, hpow]
  rw [hn, Nat.mod_mul_right_div_self]
  exact Nat.mod_mod_of_dvd _ (Nat.dvd_mul_right _ _)

/-- Settles O25: both ports are packed bytes (`byteLane_packLow`). -/
theorem flatPortsPlaceByteIInLaneI : Obligations.FlatPortsPlaceByteIInLaneI := by
  intro s
  constructor
  · intro i
    rw [State.outPayload, byteLane_packLow _ i.isLt]
    simp
  · intro i
    exact byteLane_packLow _ i.isLt

end Sys2Proof.Machine
end

section
/-! Whole spans: the decoder and the reference step on a buffer that starts with every byte of a frame, and the inversion of
`decode` over the four received rows of the table. -/

namespace Sys2Proof

/-! ### The table's decoder -/

theorem decode_wholeCmdFrame (c : Config) {body : List Byte} (hbody : body.length = 17) (ck : Byte) (Y : List Byte) :
    decode c (startByte :: cmdMark :: (body ++ ck :: Y)) = .span (.cmdFrame body ck) Y := by
  have hlong : ¬ (body ++ ck :: Y).length < 18 := by simp [hbody]; omega
  rw [decode_cmdFrame, if_neg hlong]
  simp [List.drop_append, hbody]

theorem decode_wholeDataFrame (c : Config) {T : Byte} (hT : dataClass c.mask T = true) (lo hi : Byte) {payload : List Byte}
    (hlen : payload.length = (typeLen T).toNat) (term : Byte) (Y : List Byte) :
    decode c (startByte :: T :: lo :: hi :: (payload ++ term :: Y)) =
      .span (.dataFrame (typeExt T) (typeRsv T) (identOf lo hi) payload term) Y := by
  have hlong : ¬ (lo :: hi :: (payload ++ term :: Y)).length < (typeLen T).toNat + 3 := by simp [← hlen]
  rw [decode_dataFrame c hT, if_neg hlong]
  simp [← hlen]

/-- A byte at place `n` cuts the list in three. -/
theorem take_append_getD_cons_drop {n : Nat} {r : List Byte} (h : n < r.length) :
    r = r.take n ++ r.getD n 0 :: r.drop (n + 1) := by
  rw [List.getD_eq_getElem _ _ h, ← List.drop_eq_getElem_cons h, List.take_append_drop]

/-- Everything a decoded span can be: one case per received row (R76), with the bytes it was read from. -/
theorem decode_span_cases {c : Config} {B rest : List Byte} {i : Instr} (h : decode c B = .span i rest) :
    (∃ b, b ≠ startByte ∧ B = b :: rest ∧ i = .noStart b) ∨
    (∃ T Y, T ≠ cmdMark ∧ dataClass c.mask T = false ∧ B = startByte :: T :: Y ∧ rest = T :: Y ∧ i = .badType T) ∨
    (∃ body ck, body.length = 17 ∧ B = startByte :: cmdMark :: (body ++ ck :: rest) ∧ i = .cmdFrame body ck) ∨
    (∃ T lo hi payload term, dataClass c.mask T = true ∧ payload.length = (typeLen T).toNat ∧
      B = startByte :: T :: lo :: hi :: (payload ++ term :: rest) ∧
      i = .dataFrame (typeExt T) (typeRsv T) (identOf lo hi) payload term) := by
  obtain rfl | ⟨b, r, rfl, hb⟩ | rfl | ⟨r, rfl⟩ | ⟨T, r, rfl, hT⟩ | ⟨T, r, rfl, hne, hT⟩ := buffer_forms c.mask B
  · cases h
  · rw [decode_noStart c hb] at h
    cases h
    exact .inl ⟨b, hb, rfl, rfl⟩
  · cases h
  · rw [decode_cmdFrame] at h
    split at h
    · cases h
    · cases h
      have hcut := take_append_getD_cons_drop (n := 17) (r := r) (by omega)
      exact .inr (.inr (.inl ⟨r.take 17, r.getD 17 0, by simp; omega, by rw [← hcut], rfl⟩))
  · rw [decode_dataFrame c hT] at h
    split at h
    · cases h
    · cases h
      obtain ⟨lo, hi, r, rfl⟩ := Machine.two_le_length (B := r) (by omega)
      rename_i hlong
      simp only [List.length_cons] at hlong
      have hcut := take_append_getD_cons_drop (n := (typeLen T).toNat) (r := r) (by omega)
      refine .inr (.inr (.inr ⟨T, lo, hi, r.take (typeLen T).toNat, r.getD (typeLen T).toNat 0, hT, by simp; omega, ?_, by simp⟩))
      rw [show (lo :: hi :: r).drop ((typeLen T).toNat + 3) = r.drop ((typeLen T).toNat + 1) from rfl, ← hcut]
  · rw [decode_badType c hne hT] at h
    cases h
    exact .inr (.inl ⟨T, r, hne, hT, rfl, rfl, rfl⟩)

/-! ### The reference step (R100) -/

theorem decodeStep_wholeCmdFrame (m : DataTypeMask) {body : List Byte} (hbody : body.length = 17) (ck : Byte) (Y : List Byte) :
    decodeStep m (startByte :: cmdMark :: (body ++ ck :: Y)) = .consume 20 (.cmd (ck = checksum body)) := by
  have hlong : ¬ (body ++ ck :: Y).length < 18 := by simp [hbody]; omega
  rw [decodeStep_cmdFrame, if_neg hlong]
  simp [hbody]

theorem decodeStep_wholeDataFrame (m : DataTypeMask) {T : Byte} (hT : dataClass m T = true) (lo hi : Byte) {payload : List Byte}
    (hlen : payload.length = (typeLen T).toNat) (term : Byte) (Y : List Byte) :
    decodeStep m (startByte :: T :: lo :: hi :: (payload ++ term :: Y)) =
      .consume (payload.length + 5)
        (if term = termByte then .dataOk (dataFrameOf (typeExt T) (identOf lo hi) payload) else .badTerm) := by
  have hlong : ¬ (lo :: hi :: (payload ++ term :: Y)).length < (typeLen T).toNat + 3 := by simp [← hlen]
  have hL : typeLen T = BitVec.ofNat 4 payload.length := by simp [hlen]
  rw [decodeStep_dataFrame m hT, if_neg hlong, dataFrameOf, ← hL]
  simp [← hlen]

end Sys2Proof
end

section
/-! Encoding (30_encoding.md): the table's decoder, the encoder and the reference step agree, and the class of every type byte. -/

namespace Sys2Proof

/-! ### Decoding an encoding -/

/-- The length field of the type byte holds a payload of at most 15 bytes (R71, R75). -/
theorem typeLen_typeByte {ext rsv : Bool} {n : Nat} (h : n ≤ maxLen) : (typeLen (typeByte ext rsv (BitVec.ofNat 4 n))).toNat = n := by
  rw [(typeByte_fields ext rsv _).1]
  exact Nat.mod_eq_of_lt (show n < 2 ^ 4 by unfold maxLen at h; omega)

/-- The type byte of a well-formed data frame is data class: under mask 0xF0 both its flags are 0 (R74). -/
theorem dataClass_typeByte {c : Config} {ext rsv : Bool} {id : BitVec 16} {payload : List Byte} {term : Byte}
    (h : (Instr.dataFrame ext rsv id payload term).wellFormed c = true) (len : BitVec 4) :
    dataClass c.mask (typeByte ext rsv len) = true := by
  obtain ⟨-, -, -, hc0, hf0⟩ := typeByte_fields ext rsv len
  cases hm : c.mask with
  | c0 => exact hc0
  | f0 =>
    rw [hf0]
    simpa [Instr.wellFormed, hm] using (Bool.and_eq_true_iff.1 h).2

theorem wellFormed_badType_iff (c : Config) (T : Byte) :
    (Instr.badType T).wellFormed c = true ↔ T ≠ cmdMark ∧ dataClass c.mask T = false := by
  simp [Instr.wellFormed, dataClass]

/-- Settles O42, one case per received instruction: the decoder reads back every operand the encoder wrote. -/
theorem decodeOfEncodeIsTheInstruction : Obligations.DecodeOfEncodeIsTheInstruction := by
  intro c i Y hrec hwf
  cases i with
  | noStart b =>
    have hb : b ≠ startByte := by simpa [Instr.wellFormed] using hwf
    exact decode_noStart c hb Y
  | badType T =>
    obtain ⟨hne, hT⟩ := (wellFormed_badType_iff c T).1 hwf
    exact decode_badType c hne hT Y
  | cmdFrame body ck =>
    have hbody : body.length = 17 := by simpa [Instr.wellFormed] using hwf
    have hbytes : encode c (.cmdFrame body ck) ++ Y = startByte :: cmdMark :: (body ++ ck :: Y) := by simp [encode]
    rw [hbytes, decode_wholeCmdFrame c hbody]
    simp [Instr.size, List.drop_append]
  | dataFrame ext rsv id payload term =>
    have hlen : payload.length ≤ maxLen := by simpa using (Bool.and_eq_true_iff.1 hwf).1
    have hT := dataClass_typeByte hwf (BitVec.ofNat 4 payload.length)
    have hbytes : encode c (.dataFrame ext rsv id payload term) ++ Y =
        startByte :: typeByte ext rsv (BitVec.ofNat 4 payload.length) :: identLo id :: identHi id :: (payload ++ term :: Y) := by
      simp [encode]
    obtain ⟨-, hext, hrsv, -⟩ := typeByte_fields ext rsv (BitVec.ofNat 4 payload.length)
    rw [hbytes, decode_wholeDataFrame c hT _ _ (typeLen_typeByte hlen).symm, hext, hrsv, identOf_parts]
    simp [Instr.size, overhead, List.drop_append]
  | initCmd bps => cases hrec

/-! ### Encoding what was decoded -/

/-- A data frame read under either mask is well formed: its length field has 4 bits, and mask 0xF0 fixes both flags (R74). -/
theorem wellFormed_dataFrame {c : Config} {T : Byte} (hT : dataClass c.mask T = true) (id : BitVec 16) {payload : List Byte}
    (hlen : payload.length = (typeLen T).toNat) (term : Byte) :
    (Instr.dataFrame (typeExt T) (typeRsv T) id payload term).wellFormed c = true := by
  have hmax : payload.length ≤ maxLen := by have := (typeLen T).isLt; unfold maxLen; omega
  obtain ⟨-, hflags⟩ := typeByte_of_dataClass c.mask T hT
  cases hm : c.mask with
  | c0 => simp [Instr.wellFormed, hm, hmax]
  | f0 => simp [Instr.wellFormed, hm, hmax, hflags hm]

/-- The encoder writes the type byte and the identifier bytes the frame was read from (R71). -/
theorem encode_dataFrame {c : Config} {T : Byte} (hT : dataClass c.mask T = true) (lo hi : Byte) {payload : List Byte}
    (hlen : payload.length = (typeLen T).toNat) (term : Byte) :
    encode c (.dataFrame (typeExt T) (typeRsv T) (identOf lo hi) payload term) =
      startByte :: T :: lo :: hi :: (payload ++ [term]) := by
  have hL : BitVec.ofNat 4 payload.length = typeLen T := by simp [hlen]
  simp [encode, hL, (typeByte_of_dataClass c.mask T hT).1, identLo_identOf, identHi_identOf]

/-- Settles O43, over the spans a decode can answer (`decode_span_cases`). -/
theorem decodedBytesAreTheEncoding : Obligations.DecodedBytesAreTheEncoding := by
  intro c B rest i h
  obtain ⟨b, hb, rfl, rfl⟩ | ⟨T, Y, hne, hT, rfl, rfl, rfl⟩ | ⟨body, ck, hbody, rfl, rfl⟩ |
    ⟨T, lo, hi, payload, term, hT, hlen, rfl, rfl⟩ := decode_span_cases h
  · exact ⟨rfl, by simp [Instr.wellFormed, hb], ⟨rest, rfl⟩, rfl⟩
  · exact ⟨rfl, (wellFormed_badType_iff c T).2 ⟨hne, hT⟩, ⟨Y, rfl⟩, rfl⟩
  · exact ⟨rfl, by simp [Instr.wellFormed, hbody], ⟨rest, by simp [encode]⟩, by simp [Instr.size, List.drop_append]⟩
  · refine ⟨rfl, wellFormed_dataFrame hT _ hlen term, ⟨rest, ?_⟩, by simp [Instr.size, overhead, List.drop_append]⟩
    simp [encode_dataFrame hT lo hi hlen]

/-! ### The table's decoder and the reference step -/

/-- The reference step on a decoded span (R76, R100). -/
theorem decodeStep_of_decode_span {c : Config} {B rest : List Byte} {i : Instr} (h : decode c B = .span i rest) :
    ∃ o, i.outcome? = some o ∧ decodeStep c.mask B = .consume i.size o := by
  obtain ⟨b, hb, rfl, rfl⟩ | ⟨T, Y, hne, hT, rfl, rfl, rfl⟩ | ⟨body, ck, hbody, rfl, rfl⟩ |
    ⟨T, lo, hi, payload, term, hT, hlen, rfl, rfl⟩ := decode_span_cases h
  · exact ⟨_, rfl, decodeStep_noStart _ hb rest⟩
  · exact ⟨_, rfl, decodeStep_badType _ hne hT Y⟩
  · refine ⟨_, rfl, ?_⟩
    rw [decodeStep_wholeCmdFrame _ hbody, Instr.size, hbody]
  · exact ⟨_, rfl, decodeStep_wholeDataFrame _ hT lo hi hlen term rest⟩

/-- The reference step waits where the table's decoder does (R109). -/
theorem decodeStep_of_decode_wait {c : Config} {B : List Byte} {why : WaitReason} (h : decode c B = .wait why) :
    decodeStep c.mask B = .wait := by
  obtain rfl | ⟨b, r, rfl, hb⟩ | rfl | ⟨r, rfl⟩ | ⟨T, r, rfl, hT⟩ | ⟨T, r, rfl, hne, hT⟩ := buffer_forms c.mask B
  · rfl
  · rw [decode_noStart c hb] at h; cases h
  · rfl
  · rw [decode_cmdFrame] at h
    split at h
    next hshort => rw [decodeStep_cmdFrame, if_pos hshort]
    next => cases h
  · rw [decode_dataFrame c hT] at h
    split at h
    next hshort => rw [decodeStep_dataFrame _ hT, if_pos hshort]
    next => cases h
  · rw [decode_badType c hne hT] at h; cases h

/-- Settles O44: `decodeStep_of_decode_span` and `decodeStep_of_decode_wait`. -/
theorem tableDecoderAgreesWithReferenceStep : Obligations.TableDecoderAgreesWithReferenceStep :=
  fun _ _ => ⟨fun _ _ => decodeStep_of_decode_span, fun _ => decodeStep_of_decode_wait⟩

/-! ### The class of the type byte -/

theorem dataClass_c0_iff : ∀ T : Byte, dataClass .c0 T = true ↔ 0xC0 ≤ T.toNat := by decide

theorem dataClass_f0_iff : ∀ T : Byte, dataClass .f0 T = true ↔ 0xC0 ≤ T.toNat ∧ T.toNat ≤ 0xCF := by decide

/-- Settles O46: the data class by range, and mask 0xF0 fixes bit 5 at 0 (`typeByte_of_dataClass`). -/
theorem dataClassUnderBothMasks : Obligations.DataClassUnderBothMasks :=
  ⟨dataClass_c0_iff, dataClass_f0_iff, fun T hT => ((typeByte_of_dataClass .f0 T hT).2 rfl).1,
    fun m => ⟨dataClass_cmdMark m, dataClass_startByte m⟩⟩

/-- The flags of the second bytes from 0xC0 on, by range (R77). -/
theorem typeFlags_of_le : ∀ T : Byte, 0xC0 ≤ T.toNat →
    typeExt T = decide (0xE0 ≤ T.toNat) ∧ typeRsv T = decide (T.toNat / 16 % 2 = 1) := by decide

theorem length_filter_range_add (p : Nat → Bool) (a b : Nat) :
    ((List.range (a + b)).filter p).length = ((List.range a).filter p).length + ((List.range b).filter fun n => p (a + n)).length := by
  simp [List.range_add, List.filter_map, Function.comp_def]

/-- Settles O45: the row search by the second byte (`classify_pair`), with the data class by range; the counts are evaluated
for each value of the two class bits `T[7:6]` apart. -/
theorem everySecondByteIsClassified : Obligations.EverySecondByteIsClassified := by
  refine ⟨fun T => ?_, fun T => ?_, typeFlags_of_le, fun m k => ?_⟩
  · exact (classify_pair .c0 T []).trans (by simp only [dataClass_c0_iff]; rfl)
  · exact (classify_pair .f0 T []).trans (by simp only [dataClass_f0_iff]; rfl)
  · have hquarters : 256 = 0x40 + (0x40 + (0x40 + 0x40)) := rfl
    rw [hquarters, length_filter_range_add, length_filter_range_add, length_filter_range_add]
    cases m <;> cases k <;> decide

/-! ### Words written out from the spec -/

/-- Settles O47, each word by evaluation. -/
theorem specWordsDecode : Obligations.SpecWordsDecode :=
  ⟨by decide, by decide, by decide, by decide, by decide⟩

end Sys2Proof
end

section
/-! Bit 4 of the type byte (R75): the fields the block reads from the byte do not depend on it. -/

namespace Sys2Proof.Machine

theorem typeByte_flipRsv : ∀ T : Byte,
    typeLen (T ^^^ 0x10) = typeLen T ∧ typeExt (T ^^^ 0x10) = typeExt T ∧ dataClass .c0 (T ^^^ 0x10) = dataClass .c0 T := by
  decide

theorem ParseRegs.beginData_flipRsv (T : Byte) (p : ParseRegs) : p.beginData (T ^^^ 0x10) = p.beginData T := by
  obtain ⟨hlen, hext, -⟩ := typeByte_flipRsv T
  rw [ParseRegs.beginData, hlen, hext, ParseRegs.beginData]

/-- A data-class byte accepted in START opens a data frame (R107, R131) and writes no register but the parse registers. -/
theorem step_beginData {s : State} {v : PortVector} (rest : List Stimulus) (hready : s.readyFor v) (hclear : v.clear = false)
    (hst : s.parse.st = .start) (hT : dataClass s.cfg.mask v.inData = true) :
    ∃ t, step (s.atEdge v rest) = .next t ∧ t.parse = s.parse.beginData v.inData ∧
      t.out = { s.out with valid := s.out.valid && !v.outReady } ∧ t.evt = 0 := by
  have hcmd : v.inData ≠ cmdMark := ne_cmdMark_of_dataClass hT
  have hnone : (({ s with pending := rest } : State).beginEdge v).spanInstr v.inData = none := by
    simp [State.beginEdge_eq, State.spanInstr, hclear, hst, hT]
  refine ⟨_, step_prefix v rest s hready hnone, ?_⟩
  simp [State.beginEdge_eq, ParseRegs.advance, hclear, hst, hcmd]

/-- Settles O26: both bytes open a data frame (`step_beginData`) with the same registers (`beginData_flipRsv`). -/
theorem typeBitFourIsIgnored : Obligations.TypeBitFourIsIgnored := by
  intro s v rest hready hclear hst hmask hT
  have hT' : dataClass .c0 (v.inData ^^^ 0x10) = true := (typeByte_flipRsv v.inData).2.2.trans hT
  rw [← hmask] at hT hT'
  obtain ⟨t, hstep, hparse, hout, hevt⟩ := step_beginData rest hready hclear hst hT
  obtain ⟨t', hstep', hparse', hout', hevt'⟩ :=
    step_beginData (v := { v with inData := v.inData ^^^ 0x10 }) rest hready hclear hst hT'
  refine ⟨t, t', hstep, hstep', ?_, hout'.trans hout.symm, hevt'.trans hevt.symm⟩
  rw [hparse', hparse]
  exact ParseRegs.beginData_flipRsv v.inData s.parse

end Sys2Proof.Machine
end

section
/-! The reference function (R100 to R103): one step is stable under later bytes, and a pass over a stream is a pass over its
first part followed by a pass over what that left with the rest. -/

namespace Sys2Proof

/-! ### One step -/

/-- Bytes after a whole span change neither the span nor its operands. -/
theorem decode_append {c : Config} {B rest : List Byte} {i : Instr} (h : decode c B = .span i rest) (Y : List Byte) :
    decode c (B ++ Y) = .span i (rest ++ Y) := by
  obtain ⟨b, hb, rfl, rfl⟩ | ⟨T, r, hne, hT, rfl, rfl, rfl⟩ | ⟨body, ck, hbody, rfl, rfl⟩ |
    ⟨T, lo, hi, payload, term, hT, hlen, rfl, rfl⟩ := decode_span_cases h
  · exact decode_noStart c hb _
  · exact decode_badType c hne hT _
  · simpa using decode_wholeCmdFrame c hbody ck (rest ++ Y)
  · simpa using decode_wholeDataFrame c hT lo hi hlen term (rest ++ Y)

/-- A consuming reference step is a span of the table's decoder. -/
theorem exists_span_of_decodeStep {m : DataTypeMask} {B : List Byte} {k : Nat} {o : SpanOutcome}
    (h : decodeStep m B = .consume k o) :
    ∃ c i rest, c.mask = m ∧ decode c B = .span i rest ∧ i.outcome? = some o ∧ i.size = k := by
  have hmask : ({ Config.default with mask := m } : Config).mask = m := rfl
  cases hd : decode { Config.default with mask := m } B with
  | wait why => rw [decodeStep_of_decode_wait hd] at h; cases h
  | span i rest =>
    obtain ⟨o', ho', hstep⟩ := decodeStep_of_decode_span hd
    rw [h] at hstep
    cases hstep
    exact ⟨_, i, rest, hmask, hd, ho', rfl⟩

/-- A decided step does not depend on later bytes (R109). -/
theorem decodeStep_append {m : DataTypeMask} {B : List Byte} {k : Nat} {o : SpanOutcome}
    (h : decodeStep m B = .consume k o) (Y : List Byte) : decodeStep m (B ++ Y) = .consume k o := by
  obtain ⟨c, i, rest, rfl, hd, ho, rfl⟩ := exists_span_of_decodeStep h
  obtain ⟨o', ho', hstep⟩ := decodeStep_of_decode_span (decode_append hd Y)
  cases ho.symm.trans ho'
  exact hstep

/-- A step consumes at least one byte, and only bytes of the buffer (R100). -/
theorem decodeStep_consume_bounds {m : DataTypeMask} {B : List Byte} {k : Nat} {o : SpanOutcome}
    (h : decodeStep m B = .consume k o) : 1 ≤ k ∧ k ≤ B.length := by
  obtain ⟨c, i, rest, -, hd, -, rfl⟩ := exists_span_of_decodeStep h
  obtain ⟨b, -, rfl, rfl⟩ | ⟨T, r, -, -, rfl, -, rfl⟩ | ⟨body, ck, -, rfl, rfl⟩ |
    ⟨T, lo, hi, payload, term, -, -, rfl, rfl⟩ := decode_span_cases hd
  · simp [Instr.size]
  · simp [Instr.size]
  · simp [Instr.size]
  · simp [Instr.size, overhead]

/-- The four forms of a waiting buffer (R109). -/
theorem decodeStep_wait_forms {m : DataTypeMask} {B : List Byte} (h : decodeStep m B = .wait) :
    B = [] ∨ B = [startByte] ∨ (∃ r, B = startByte :: cmdMark :: r ∧ r.length < 18) ∨
    (∃ T r, B = startByte :: T :: r ∧ dataClass m T = true ∧ r.length < (typeLen T).toNat + 3) := by
  obtain rfl | ⟨b, r, rfl, hb⟩ | rfl | ⟨r, rfl⟩ | ⟨T, r, rfl, hT⟩ | ⟨T, r, rfl, hne, hT⟩ := buffer_forms m B
  · exact .inl rfl
  · rw [decodeStep_noStart m hb] at h; cases h
  · exact .inr (.inl rfl)
  · rw [decodeStep_cmdFrame] at h
    split at h
    next hshort => exact .inr (.inr (.inl ⟨r, rfl, hshort⟩))
    next => cases h
  · rw [decodeStep_dataFrame m hT] at h
    split at h
    next hshort => exact .inr (.inr (.inr ⟨T, r, rfl, hT, hshort⟩))
    next => cases h
  · rw [decodeStep_badType m hne hT] at h; cases h

/-- The length field as the mask of R109 reads it. -/
theorem typeLen_toNat : ∀ T : Byte, (typeLen T).toNat = (T &&& 0x0F).toNat := by decide

/-- Settles O36: `decodeStep_append` and `decodeStep_wait_forms`. -/
theorem decodeStepIsPrefixStable : Obligations.DecodeStepIsPrefixStable := by
  intro m B
  refine ⟨fun k o Y h => decodeStep_append h Y, fun h => ?_⟩
  obtain hnil | hlone | hcmd | ⟨T, r, rfl, hT, hr⟩ := decodeStep_wait_forms h
  · exact .inl hnil
  · exact .inr (.inl hlone)
  · exact .inr (.inr (.inl hcmd))
  · refine .inr (.inr (.inr ⟨T, r, rfl, hT, ?_⟩))
    rw [← typeLen_toNat, List.length_cons, List.length_cons]
    omega

/-! ### One pass -/

/-- More passes than bytes change nothing: each pass that goes on consumes a byte. -/
theorem decodePasses_eq_of_length_le {m : DataTypeMask} {n n' : Nat} {B : List Byte} (hn : B.length ≤ n) (hn' : B.length ≤ n') :
    decodePasses m n B = decodePasses m n' B := by
  induction n generalizing n' B with
  | zero =>
    obtain rfl : B = [] := List.length_eq_zero_iff.1 (by omega)
    cases n' <;> rfl
  | succ n ih =>
    cases n' with
    | zero =>
      obtain rfl : B = [] := List.length_eq_zero_iff.1 (by omega)
      rfl
    | succ n' =>
      simp only [decodePasses]
      cases hs : decodeStep m B with
      | wait => rfl
      | consume k o =>
        have hk := (decodeStep_consume_bounds hs).1
        have hlen : (B.drop k).length = B.length - k := List.length_drop
        simp only [ih (n' := n') (B := B.drop k) (by omega) (by omega)]

theorem decodePasses_eq_decodeAll {m : DataTypeMask} {n : Nat} {B : List Byte} (h : B.length ≤ n) :
    decodePasses m n B = decodeAll m B :=
  decodePasses_eq_of_length_le h le_rfl

theorem decodeAll_of_wait {m : DataTypeMask} {B : List Byte} (h : decodeStep m B = .wait) : decodeAll m B = ([], 0) := by
  rw [← decodePasses_eq_decodeAll (Nat.le_succ B.length)]
  simp [decodePasses, h]

theorem decodeAll_of_consume {m : DataTypeMask} {B : List Byte} {k : Nat} {o : SpanOutcome}
    (h : decodeStep m B = .consume k o) :
    decodeAll m B = (o :: (decodeAll m (B.drop k)).1, k + (decodeAll m (B.drop k)).2) := by
  have hrest : (B.drop k).length ≤ B.length := by simp
  rw [← decodePasses_eq_decodeAll (Nat.le_succ B.length), ← decodePasses_eq_decodeAll hrest]
  simp [decodePasses, h]

theorem undecided_of_wait {m : DataTypeMask} {B : List Byte} (h : decodeStep m B = .wait) : undecided m B = B := by
  simp [undecided, decodeAll_of_wait h]

theorem undecided_of_consume {m : DataTypeMask} {B : List Byte} {k : Nat} {o : SpanOutcome}
    (h : decodeStep m B = .consume k o) : undecided m B = undecided m (B.drop k) := by
  simp [undecided, decodeAll_of_consume h]

/-- A buffer that is one whole span. -/
theorem decodeAll_of_wholeSpan {m : DataTypeMask} {B : List Byte} {o : SpanOutcome}
    (h : decodeStep m B = .consume B.length o) : decodeAll m B = ([o], B.length) ∧ undecided m B = [] := by
  have hnil : decodeAll m [] = ([], 0) := decodeAll_of_wait (decodeStep_nil m)
  constructor
  · rw [decodeAll_of_consume h, List.drop_length, hnil]; rfl
  · rw [undecided_of_consume h, List.drop_length, undecided_of_wait (decodeStep_nil m)]

/-- Induction along the passes of R101: to the waiting buffer that ends them, and from what a span leaves to the buffer before it. -/
theorem decodePass_induction {m : DataTypeMask} {P : List Byte → Prop} (hwait : ∀ B, decodeStep m B = .wait → P B)
    (hconsume : ∀ B k o, decodeStep m B = .consume k o → P (B.drop k) → P B) (B : List Byte) : P B := by
  cases hs : decodeStep m B with
  | wait => exact hwait B hs
  | consume k o =>
    have hk := decodeStep_consume_bounds hs
    exact hconsume B k o hs (decodePass_induction hwait hconsume (B.drop k))
termination_by B.length
decreasing_by simp; omega

/-- What a pass leaves could not be consumed already (R111). -/
theorem decodeStep_undecided (m : DataTypeMask) (B : List Byte) : decodeStep m (undecided m B) = .wait := by
  induction B using decodePass_induction (m := m) with
  | hwait B h => rw [undecided_of_wait h, h]
  | hconsume B k o h ih => rw [undecided_of_consume h, ih]

/-- A pass over a stream: the outcomes of its first part, then those of what that part left with the rest. -/
theorem decodeAll_append (m : DataTypeMask) (B Y : List Byte) :
    (decodeAll m (B ++ Y)).1 = (decodeAll m B).1 ++ (decodeAll m (undecided m B ++ Y)).1 ∧
    undecided m (B ++ Y) = undecided m (undecided m B ++ Y) := by
  induction B using decodePass_induction (m := m) with
  | hwait B h => simp [undecided_of_wait h, decodeAll_of_wait h]
  | hconsume B k o h ih =>
    have hY := decodeStep_append h Y
    have hdrop : (B ++ Y).drop k = B.drop k ++ Y := List.drop_append_of_le_length (decodeStep_consume_bounds h).2
    obtain ⟨houts, hrest⟩ := ih
    constructor
    · rw [decodeAll_of_consume hY, decodeAll_of_consume h, undecided_of_consume h, hdrop, houts, List.cons_append]
    · rw [undecided_of_consume hY, undecided_of_consume h, hdrop, hrest]

/-! ### Sessions -/

/-- A session that starts from a waiting buffer is one pass over that buffer and all its chunks. -/
theorem decodeSession_eq {m : DataTypeMask} {B : List Byte} (h : decodeStep m B = .wait) (chunks : List (List Byte)) :
    decodeSession m B chunks = ((decodeAll m (B ++ chunks.flatten)).1, undecided m (B ++ chunks.flatten)) := by
  induction chunks generalizing B with
  | nil => simp [decodeSession, decodeAll_of_wait h, undecided_of_wait h]
  | cons X Xs ih =>
    obtain ⟨houts, hrest⟩ := decodeAll_append m (B ++ X) Xs.flatten
    rw [decodeSession, ih (decodeStep_undecided m (B ++ X)), List.flatten_cons, ← List.append_assoc, houts, hrest]

/-- Settles O37: the empty buffer waits (`decodeSession_eq`). -/
theorem chunkingDoesNotMatter : Obligations.ChunkingDoesNotMatter :=
  fun m chunks => decodeSession_eq (decodeStep_nil m) chunks

/-! ### What a pass retains, and streams around a start byte -/

/-- A waiting buffer has at most 19 bytes: a command frame lacks a byte, or a data frame of at most 20 does. -/
theorem length_le_of_wait {m : DataTypeMask} {B : List Byte} (h : decodeStep m B = .wait) : B.length ≤ 19 := by
  obtain rfl | rfl | ⟨r, rfl, hr⟩ | ⟨T, r, rfl, -, hr⟩ := decodeStep_wait_forms h
  · simp
  · simp
  · simp only [List.length_cons]; omega
  · have := (typeLen T).isLt
    simp only [List.length_cons]; omega

/-- Settles O38: what a pass retains is a waiting buffer (`decodeStep_undecided`). -/
theorem retentionIsBounded : Obligations.RetentionIsBounded := by
  intro m B
  have hwait := decodeStep_undecided m B
  refine ⟨length_le_of_wait hwait, hwait, fun T r hr hT => ?_⟩
  have hframe : decodeStep m (startByte :: T :: r) = .wait := hr ▸ hwait
  rw [decodeStep_dataFrame m hT] at hframe
  split at hframe
  next hshort => rw [hr, List.length_cons, List.length_cons]; omega
  next => cases hframe

/-- Settles O39, by induction on the bytes, each a NOSTART. -/
theorem noStartByteNoFrame : Obligations.NoStartByteNoFrame := by
  intro m S hS
  induction S with
  | nil => rfl
  | cons b S ih =>
    obtain ⟨hb, hS⟩ := List.ne_and_not_mem_of_not_mem_cons hS
    rw [decodeAll_of_consume (decodeStep_noStart m (Ne.symm hb) S), List.drop_one, List.tail_cons, ih hS]
    exact Prod.ext rfl (Nat.add_comm 1 S.length)

/-- The reference step on the encoding of a received instruction. -/
theorem decodeStep_encode {c : Config} {i : Instr} (hrec : i.received = true) (hwf : i.wellFormed c = true) :
    ∃ o, i.outcome? = some o ∧ decodeStep c.mask (encode c i) = .consume i.size o := by
  have hd := decodeOfEncodeIsTheInstruction c i [] hrec hwf
  rw [List.append_nil] at hd
  exact decodeStep_of_decode_span hd

/-- Settles O40: a well-formed frame is one whole span, and the byte before it is consumed alone, as NOSTART or, before the
frame's own 0xAA, as BADTYPE. -/
theorem oneStrayByteCostsOneDiscard : Obligations.OneStrayByteCostsOneDiscard := by
  intro c z ext rsv id payload hwf
  obtain ⟨o, ho, hstep⟩ := decodeStep_encode rfl hwf
  cases ho
  have hlen : (encode c (.dataFrame ext rsv id payload 0x55)).length = payload.length + 5 := by simp [encode]
  have hframe : decodeAll c.mask (encode c (.dataFrame ext rsv id payload 0x55)) =
      ([.dataOk (dataFrameOf ext id payload)], payload.length + 5) :=
    hlen ▸ (decodeAll_of_wholeSpan (hlen ▸ hstep)).1
  have hstray : decodeStep c.mask (z :: encode c (.dataFrame ext rsv id payload 0x55)) =
      .consume 1 (if z = 0xAA then .badType else .noStart) := by
    by_cases hz : z = 0xAA
    · rw [if_pos hz, hz]
      exact decodeStep_badType c.mask (by decide) (dataClass_startByte c.mask) _
    · rw [if_neg hz, decodeStep_noStart c.mask hz]
  refine ⟨hframe, ?_⟩
  rw [decodeAll_of_consume hstray, List.drop_one, List.tail_cons, hframe]
  simp; omega

end Sys2Proof
end

section
/-! What the instructions of the synchronizer do and what every instruction leaves (R104, R105), and the byte rules in HUNT and
in START (R106, R107, R108). -/

namespace Sys2Proof.Machine

/-! ### The instructions -/

/-- Settles O3: the event bit of NOSTART is bit 0. -/
theorem noStartSignalsAndDrops : Obligations.NoStartSignalsAndDrops := fun b s _ => exec_next (.noStart b) s

/-- BADTYPE with 0xAA behind it: the second byte starts a span (R107). -/
theorem exec_badType_startByte (s : State) :
    exec (.badType startByte) s =
      .next { s with evt := s.evt ||| 0x02, parse := { s.parse with st := .start, pos := 1 }, buf := [startByte] } :=
  exec_next (.badType startByte) s

/-- BADTYPE with any other byte behind it: the second byte is a NOSTART (R107). -/
theorem exec_badType_of_ne {b : Byte} (hb : b ≠ startByte) (s : State) :
    exec (.badType b) s =
      .next { s with evt := s.evt ||| 0x03, parse := { s.parse with st := .hunt, pos := 0 }, buf := [] } := by
  have hbits : s.evt ||| Evt.badType.bit ||| Evt.noStart.bit = s.evt ||| 0x03 := BitVec.or_assoc ..
  rw [exec_next, ← hbits]
  simp only [State.examineHead_eq, if_neg hb]
  rfl

/-- Settles O4, by the second byte: `exec_badType_startByte` and `exec_badType_of_ne`. -/
theorem badTypeReexaminesItsSecondByte : Obligations.BadTypeReexaminesItsSecondByte := by
  intro m b s _ _
  by_cases hb : b = 0xAA
  · rw [if_pos hb, hb]
    exact exec_badType_startByte s
  · rw [if_neg hb]
    exact exec_badType_of_ne hb s

/-- An instruction moves `st` and `pos` only: it leaves the parse registers, ends the span, or ends it and starts the next. -/
theorem exec_parse {i : Instr} {s t : State} (h : exec i s = .next t) :
    t.parse = s.parse ∨ t.parse = s.parse.toHunt ∨ t.parse = s.parse.toHunt.startSpan := by
  rw [exec_next] at h
  cases h
  cases i with
  | noStart b => exact .inl rfl
  | badType b => by_cases hb : b = startByte <;> simp [State.examineHead_eq, hb]
  | cmdFrame body ck => simp [State.signalCkok_eq]
  | dataFrame ext rsv id payload term => by_cases ht : term = termByte <;> simp [ht]
  | initCmd bps => exact .inl rfl

/-- No instruction moves the sampled ports or the stimulus, and a received one leaves the `speed_bps` port. -/
theorem exec_environment {i : Instr} {s t : State} (h : exec i s = .next t) :
    t.inp = s.inp ∧ t.pending = s.pending ∧ (i.received = true → t.speedBps = s.speedBps) := by
  rw [exec_next] at h
  cases h
  cases i with
  | noStart b => exact ⟨rfl, rfl, fun _ => rfl⟩
  | badType b => by_cases hb : b = startByte <;> simp [State.examineHead_eq, hb]
  | cmdFrame body ck => simp [State.signalCkok_eq]
  | dataFrame ext rsv id payload term => by_cases ht : term = termByte <;> simp [ht]
  | initCmd bps => exact ⟨rfl, rfl, fun hrec => by cases hrec⟩

/-- Settles O9: `exec_parse` for the working registers, `exec_out` for the output registers; INIT_CMD writes no register. -/
theorem instructionsLeaveTheRestUnchanged : Obligations.InstructionsLeaveTheRestUnchanged := by
  intro i s t h
  have hworking : t.parse.wLen = s.parse.wLen ∧ t.parse.wExt = s.parse.wExt ∧ t.parse.wId = s.parse.wId ∧
      t.parse.wPl = s.parse.wPl ∧ t.parse.csum = s.parse.csum := by
    obtain hp | hp | hp := exec_parse h <;> simp [hp]
  obtain ⟨hlen, hext, hid, hpl, hcsum⟩ := hworking
  obtain ⟨hinp, hpending, hspeed⟩ := exec_environment h
  have hinit : i.received = false → t.parse = s.parse ∧ t.out = s.out ∧ t.evt = s.evt ∧ t.buf = s.buf := by
    intro hrec
    cases i with
    | initCmd bps => cases h; exact ⟨rfl, rfl, rfl, rfl⟩
    | noStart b => cases hrec
    | badType b => cases hrec
    | cmdFrame body ck => cases hrec
    | dataFrame ext rsv id payload term => cases hrec
  have hout : (∀ ext rsv id payload, i ≠ .dataFrame ext rsv id payload 0x55) → t.out = s.out := by
    intro hother
    obtain hsame | ⟨ext, rsv, id, payload, hi, -⟩ := exec_out h
    · exact hsame
    · exact absurd hi (hother ext rsv id payload)
  exact ⟨hlen, hext, hid, hpl, hcsum, exec_cfg h, hinp, hpending, hspeed, hinit, hout⟩

/-! ### The edge before its byte -/

/-- An edge that accepts a byte finds the output register free, so there is nothing to deliver: before the byte it only samples
its ports, empties the event vector and applies `clear`. -/
theorem State.beginEdge_of_ready {v : PortVector} {s : State} (rest : List Stimulus) (h : s.readyFor v) :
    ({ s with pending := rest } : State).beginEdge v = { s with
      inp := v, pending := rest, evt := 0, buf := s.bufAt v
      parse := if v.clear then s.parse.toHunt else s.parse } := by
  obtain ⟨-, -, -, hfree⟩ := h
  have hout : ({ s.out with valid := s.out.valid && !v.outReady } : OutRegs) = s.out := by rw [hfree, Bool.false_and, ← hfree]
  rw [State.beginEdge_eq, hout]
  rfl

theorem State.beginEdge_of_ready_noClear {v : PortVector} {s : State} (rest : List Stimulus) (h : s.readyFor v)
    (hclear : v.clear = false) :
    ({ s with pending := rest } : State).beginEdge v = { s with inp := v, pending := rest, evt := 0 } := by
  simp [State.beginEdge_of_ready rest h, State.bufAt, hclear]

/-! ### The byte rules -/

theorem State.buf_of_hunt {s : State} (h : s.coherent = true) (hst : s.parse.st = .hunt) : s.buf = [] := by
  obtain ⟨-, -, hb⟩ | ⟨hst', -⟩ | ⟨hst', -⟩ | ⟨hst', -⟩ := (State.coherent_iff s).1 h
  · exact hb
  all_goals simp [hst] at hst'

theorem State.pos_buf_of_start {s : State} (h : s.coherent = true) (hst : s.parse.st = .start) :
    s.parse.pos = 1 ∧ s.buf = [startByte] := by
  obtain ⟨hst', -⟩ | ⟨-, hp, hb⟩ | ⟨hst', -⟩ | ⟨hst', -⟩ := (State.coherent_iff s).1 h
  · simp [hst] at hst'
  · exact ⟨hp, hb⟩
  all_goals simp [hst] at hst'

/-- Settles O10, by the byte: 0xAA completes no span and moves to START, any other byte completes a NOSTART. -/
theorem huntByteRule : Obligations.HuntByteRule := by
  intro s v rest hready hclear hst
  have ⟨_, hc, _, _⟩ := hready
  have hbegin := State.beginEdge_of_ready_noClear rest hready hclear
  by_cases hb : v.inData = startByte
  · have hspan : (({ s with pending := rest } : State).beginEdge v).spanInstr v.inData = none := by
      simp [hbegin, State.spanInstr, hst, hb]
    rw [step_prefix v rest s hready hspan, hbegin, if_pos (show v.inData = 0xAA from hb)]
    simp [State.acceptPrefix, ParseRegs.advance, ParseRegs.startSpan, hst, State.buf_of_hunt hc hst, hb]
  · have hspan : (({ s with pending := rest } : State).beginEdge v).spanInstr v.inData = some (.noStart v.inData) := by
      simp [hbegin, State.spanInstr, hst, hb]
    rw [step_span v rest s hready hspan, hbegin, if_neg (show ¬ v.inData = 0xAA from hb), noStartSignalsAndDrops _ _ hb]
    simp

/-- Settles O11, by the byte: 0x55 and the data class complete no span and begin a frame (R160, R131), any other byte
completes a BADTYPE. -/
theorem startByteRule : Obligations.StartByteRule := by
  intro s v rest hready hclear hst
  have ⟨_, hc, _, _⟩ := hready
  obtain ⟨hpos, hbuf⟩ := State.pos_buf_of_start hc hst
  have hbegin := State.beginEdge_of_ready_noClear rest hready hclear
  by_cases hcmd : v.inData = cmdMark
  · have hspan : (({ s with pending := rest } : State).beginEdge v).spanInstr v.inData = none := by
      simp [hbegin, State.spanInstr, hst, hcmd]
    rw [step_prefix v rest s hready hspan, hbegin, if_pos (show v.inData = 0x55 from hcmd)]
    simp [State.acceptPrefix, ParseRegs.advance, ParseRegs.beginCmd, hst, hbuf, hcmd]
  rw [if_neg (show ¬ v.inData = 0x55 from hcmd)]
  by_cases hT : v.inData &&& s.cfg.mask.bits = 0xC0
  · have hclass : dataClass s.cfg.mask v.inData = true := decide_eq_true hT
    have hspan : (({ s with pending := rest } : State).beginEdge v).spanInstr v.inData = none := by
      simp [hbegin, State.spanInstr, hst, hclass]
    rw [step_prefix v rest s hready hspan, hbegin, if_pos hT]
    simp [State.acceptPrefix, ParseRegs.advance, ParseRegs.beginData, typeLen, typeExt, hst, hbuf, hcmd]
  have hclass : dataClass s.cfg.mask v.inData = false := decide_eq_false hT
  have hspan : (({ s with pending := rest } : State).beginEdge v).spanInstr v.inData = some (.badType v.inData) := by
    simp [hbegin, State.spanInstr, hst, hcmd, hclass]
  rw [step_span v rest s hready hspan, hbegin, if_neg hT]
  by_cases hAA : v.inData = startByte
  · rw [if_pos (show v.inData = 0xAA from hAA), hAA, exec_badType_startByte, ← hst, ← hpos, ← hbuf]
    simp
  · rw [if_neg (show ¬ v.inData = 0xAA from hAA), exec_badType_of_ne hAA]
    simp

/-- Where the decoder waits no span completes, also after the edge's `clear`. -/
theorem State.spanInstr_beginEdge_of_wait {s : State} {v : PortVector} {rest : List Stimulus} {why : WaitReason}
    (h : s.readyFor v) (hwait : decode s.cfg (s.bufAt v ++ [v.inData]) = .wait why) :
    (({ s with pending := rest } : State).beginEdge v).spanInstr v.inData = none := by
  have ⟨_, hc, _, _⟩ := h
  refine State.spanInstr_of_decode_wait _ v.inData (State.beginEdge_coherent v _ hc) (why := why) ?_
  rw [State.beginEdge_of_ready rest h]
  exact hwait

/-- Settles O17: the byte completes no span (`State.spanInstr_beginEdge_of_wait`), so it is kept (`State.acceptPrefix`). -/
theorem undecidedByteIsKeptSilently : Obligations.UndecidedByteIsKeptSilently := by
  intro s v rest why hready hwait
  have ⟨_, hc, _, _⟩ := hready
  have hspan := State.spanInstr_beginEdge_of_wait (rest := rest) hready hwait
  have hkept := State.coherent_acceptPrefix _ v.inData (State.beginEdge_coherent v { s with pending := rest } hc) hspan
  refine ⟨_, step_prefix v rest s hready hspan, ?_⟩
  rw [State.beginEdge_of_ready rest hready] at hkept ⊢
  exact ⟨rfl, rfl, rfl, rfl, rfl, rfl, hkept⟩

end Sys2Proof.Machine
end

section
/-! The state machine and the reference function (R112): one accepted byte, one edge, and a run. -/

namespace Sys2Proof.Machine

/-! ### What an instruction signals and keeps -/

/-- From an empty event vector NOSTART signals itself and keeps the logical buffer (R106). -/
theorem exec_noStart_signalled {b : Byte} {s t : State} (he : s.evt = 0) (h : exec (.noStart b) s = .next t) :
    t.signalled = [.noStart] ∧ t.buf = s.buf := by
  rw [exec_next] at h
  cases h
  simp [State.signalled, State.signals, he, Evt.bit]

/-- From an empty event vector BADTYPE signals itself, and a second byte other than 0xAA as a NOSTART after it (R107). -/
theorem exec_badType_signalled {b : Byte} {s t : State} (he : s.evt = 0) (h : exec (.badType b) s = .next t) :
    t.signalled = (if b = startByte then [.badType] else [.badType, .noStart]) ∧
    t.buf = if b = startByte then [startByte] else [] := by
  by_cases hb : b = startByte
  · rw [hb, exec_badType_startByte] at h
    cases h
    simp [State.signalled, State.signals, he, hb, Evt.bit]
  · rw [exec_badType_of_ne hb] at h
    cases h
    simp [State.signalled, State.signals, he, hb, Evt.bit]

/-- From an empty event vector CMD_FRAME signals the checksum's verdict (R162). -/
theorem exec_cmdFrame_signalled {body : List Byte} {ck : Byte} {s t : State} (he : s.evt = 0)
    (h : exec (.cmdFrame body ck) s = .next t) : t.signalled = [.cmd (ck = s.parse.csum)] ∧ t.buf = [] := by
  rw [exec_next] at h
  cases h
  by_cases hk : ck = s.parse.csum <;>
    simp [State.signalled, State.signals, State.signalCkok_eq, he, hk, Evt.bit]

/-- The frame read back from the output register is the frame emitted (R138): a payload of at most 15 bytes fits the lanes,
and its length the 4 bits of `o_len`. -/
theorem State.outFrame_emit {ext : Bool} {id : BitVec 16} {payload : List Byte} (s : State) (h : payload.length ≤ 15) :
    (s.emit (dataFrameOf ext id payload)).outFrame = dataFrameOf ext id payload := by
  have hlen : payload.length % 16 = payload.length := Nat.mod_eq_of_lt (by omega)
  simp [State.outFrame, dataFrameOf, hlen, take_padPayload payload h]

/-- From an empty event vector DATA_FRAME signals its frame, or BADTERM (R135, R136). -/
theorem exec_dataFrame_signalled {ext rsv : Bool} {id : BitVec 16} {payload : List Byte} {term : Byte} {s t : State}
    (he : s.evt = 0) (hlen : payload.length ≤ 15) (h : exec (.dataFrame ext rsv id payload term) s = .next t) :
    t.signalled = [if term = termByte then .dataOk (dataFrameOf ext id payload) else .badTerm] ∧ t.buf = [] := by
  rw [exec_next] at h
  cases h
  by_cases ht : term = termByte
  · have hframe : ((s.emit (dataFrameOf ext id payload)).signal .dataOk).endSpan.outFrame = dataFrameOf ext id payload :=
      State.outFrame_emit s hlen
    simp [State.signalled, State.signals, he, ht, hframe, Evt.bit]
  · simp [State.signalled, State.signals, he, ht, Evt.bit]

/-! ### One accepted byte -/

theorem State.repCmd_of_cmd {s : State} (h : s.coherent = true) (hst : s.parse.st = .cmd) : s.parse.RepCmd s.buf := by
  obtain ⟨hst', -⟩ | ⟨hst', -⟩ | ⟨-, hrep⟩ | ⟨hst', -⟩ := (State.coherent_iff s).1 h
  case inr.inr.inl => exact hrep
  all_goals simp [hst] at hst'

theorem State.repData_of_data {s : State} (h : s.coherent = true) (hst : s.parse.st = .data) :
    s.parse.RepData s.cfg.mask s.buf := by
  obtain ⟨hst', -⟩ | ⟨hst', -⟩ | ⟨hst', -⟩ | ⟨-, hrep⟩ := (State.coherent_iff s).1 h
  case inr.inr.inr => exact hrep
  all_goals simp [hst] at hst'

/-- The instruction that a byte completes, with the logical buffer before the byte: one case per received row. -/
theorem State.completedSpan_cases {s : State} {b : Byte} {i : Instr} (hc : s.coherent = true) (hi : s.spanInstr b = some i) :
    (b ≠ startByte ∧ s.buf = [] ∧ i = .noStart b) ∨
    (b ≠ cmdMark ∧ dataClass s.cfg.mask b = false ∧ s.buf = [startByte] ∧ i = .badType b) ∨
    (∃ body, body.length = 17 ∧ s.parse.csum = checksum body ∧ s.buf = startByte :: cmdMark :: body ∧ i = .cmdFrame body b) ∨
    (∃ T lo hi payload, dataClass s.cfg.mask T = true ∧ payload.length = (typeLen T).toNat ∧
      s.buf = startByte :: T :: lo :: hi :: payload ∧
      i = .dataFrame (typeExt T) (typeRsv T) (identOf lo hi) payload b) := by
  obtain ⟨hst, hb, rfl⟩ | ⟨hst, hcmd, hT, rfl⟩ | ⟨hst, hpos, rfl⟩ | ⟨hst, hpos, rfl⟩ := State.spanInstr_cases s b hi
  · exact .inl ⟨hb, State.buf_of_hunt hc hst, rfl⟩
  · exact .inr (.inl ⟨hcmd, hT, (State.pos_buf_of_start hc hst).2, rfl⟩)
  · obtain ⟨body, hbuf, hlen, -, hcsum⟩ := (ParseRegs.repCmd_iff _ _).1 (State.repCmd_of_cmd hc hst)
    have h19 : s.parse.pos.toNat = 19 := by rw [hpos]; rfl
    exact .inr (.inr (.inl ⟨body, by omega, hcsum, hbuf, by rw [hbuf]; rfl⟩))
  · obtain ⟨T, r, hbuf, hT, hlen, -, hL, hX, hlo, hhi, hpl⟩ := (ParseRegs.repData_iff _ _ _).1 (State.repData_of_data hc hst)
    have hpay := ParseRegs.payload_eq s.parse r (by omega) hpl
    obtain ⟨lo, hi, payload, rfl⟩ := two_le_length (B := r) (by omega)
    have hid := wId_eq_identOf s.parse.wId (hlo (by simp)) (hhi (by simp))
    simp only [List.length_cons] at hlen
    refine .inr (.inr (.inr ⟨T, lo, hi, payload, hT, by rw [← hL]; omega, hbuf, ?_⟩))
    rw [hX, hid, hpay, hbuf]
    rfl

/-- A pass over a BADTYPE head pair: the second byte is a head of its own (R100, R107). -/
theorem decodeAll_badTypePair {m : DataTypeMask} {b : Byte} (hcmd : b ≠ cmdMark) (hT : dataClass m b = false) :
    (decodeAll m [startByte, b]).1 = (if b = startByte then [.badType] else [.badType, .noStart]) ∧
    undecided m [startByte, b] = if b = startByte then [startByte] else [] := by
  have hpair := decodeStep_badType m hcmd hT []
  rw [decodeAll_of_consume hpair, undecided_of_consume hpair, List.drop_one, List.tail_cons]
  by_cases hb : b = startByte
  · have hwait := decodeStep_loneStart m
    rw [if_pos hb, if_pos hb, hb, decodeAll_of_wait hwait, undecided_of_wait hwait]
    exact ⟨rfl, rfl⟩
  · obtain ⟨houts, hrest⟩ := decodeAll_of_wholeSpan (decodeStep_noStart m hb [])
    rw [if_neg hb, if_neg hb, houts, hrest]
    exact ⟨rfl, rfl⟩

/-- An accepted byte that completes a span: its instruction signals the reference outcomes and leaves the undecided bytes. -/
theorem exec_matches_reference {s t : State} {b : Byte} {i : Instr} (hc : s.coherent = true) (he : s.evt = 0)
    (hi : s.spanInstr b = some i) (h : exec i s = .next t) :
    t.signalled = (decodeAll s.cfg.mask (s.buf ++ [b])).1 ∧ t.buf = undecided s.cfg.mask (s.buf ++ [b]) := by
  obtain ⟨hb, hbuf, rfl⟩ | ⟨hcmd, hT, hbuf, rfl⟩ | ⟨body, hlen, hcsum, hbuf, rfl⟩ |
    ⟨T, lo, hi', payload, hT, hlen, hbuf, rfl⟩ := State.completedSpan_cases hc hi
  · obtain ⟨houts, hrest⟩ := decodeAll_of_wholeSpan (decodeStep_noStart s.cfg.mask hb [])
    obtain ⟨hsig, hkept⟩ := exec_noStart_signalled he h
    rw [hbuf, List.nil_append, houts, hrest, hsig, hkept, hbuf]
    exact ⟨rfl, rfl⟩
  · obtain ⟨houts, hrest⟩ := decodeAll_badTypePair hcmd hT
    obtain ⟨hsig, hleft⟩ := exec_badType_signalled he h
    rw [hbuf, List.cons_append, List.nil_append, houts, hrest]
    exact ⟨hsig, hleft⟩
  · have hstep := decodeStep_wholeCmdFrame s.cfg.mask hlen b []
    obtain ⟨houts, hrest⟩ := decodeAll_of_wholeSpan (B := startByte :: cmdMark :: (body ++ [b])) (by simpa [hlen] using hstep)
    obtain ⟨hsig, hempty⟩ := exec_cmdFrame_signalled he h
    rw [hbuf, List.cons_append, List.cons_append, houts, hrest, hsig, hcsum]
    exact ⟨rfl, hempty⟩
  · have hstep := decodeStep_wholeDataFrame s.cfg.mask hT lo hi' hlen b []
    obtain ⟨houts, hrest⟩ :=
      decodeAll_of_wholeSpan (B := startByte :: T :: lo :: hi' :: (payload ++ [b])) (by simpa using hstep)
    have hmax : payload.length ≤ 15 := by have := (typeLen T).isLt; omega
    obtain ⟨hsig, hempty⟩ := exec_dataFrame_signalled he hmax h
    rw [hbuf, List.cons_append, List.cons_append, List.cons_append, List.cons_append, houts, hrest]
    exact ⟨hsig, hempty⟩

/-- A byte that completes no span leaves the reference step waiting (R108). -/
theorem State.decodeStep_of_spanInstr_none {s : State} {b : Byte} (hc : s.coherent = true) (hi : s.spanInstr b = none) :
    decodeStep s.cfg.mask (s.buf ++ [b]) = .wait := by
  cases hd : decode s.cfg (s.buf ++ [b]) with
  | wait why => exact decodeStep_of_decode_wait hd
  | span i tail => rw [State.spanInstr_of_decode_span s b hc hd] at hi; cases hi

theorem State.signalled_of_evt_zero {s : State} (h : s.evt = 0) : s.signalled = [] := by
  simp [State.signalled, State.signals, h]

/-- The logical buffer of a coherent state represents itself (R52). -/
theorem State.rep_of_coherent {s : State} (h : s.coherent = true) : s.parse.rep s.cfg.mask s.buf = true :=
  (Bool.and_eq_true_iff.1 h).2

/-- Settles O30: a byte that goes on leaves a waiting buffer (`State.decodeStep_of_spanInstr_none`), one that completes a span
runs its instruction (`exec_matches_reference`). -/
theorem acceptedByteMatchesTheReference : Obligations.AcceptedByteMatchesTheReference := by
  intro s v rest hready
  have ⟨_, hcoh, _, _⟩ := hready
  have hc := State.beginEdge_coherent v { s with pending := rest } hcoh
  have he := State.beginEdge_evt v { s with pending := rest }
  have hcfg := State.beginEdge_cfg v { s with pending := rest }
  have hbuf : (({ s with pending := rest } : State).beginEdge v).buf = s.bufAt v := by
    rw [State.beginEdge_of_ready rest hready]
  cases hi : (({ s with pending := rest } : State).beginEdge v).spanInstr v.inData with
  | none =>
    have hwait := State.decodeStep_of_spanInstr_none hc hi
    have hrep := State.rep_of_coherent (State.coherent_acceptPrefix _ _ hc hi)
    refine ⟨_, step_prefix v rest s hready hi, ?_⟩
    rw [hcfg, hbuf] at hwait
    rw [State.acceptPrefix_cfg, hcfg] at hrep
    rw [decodeAll_of_wait hwait, undecided_of_wait hwait, ← hbuf]
    exact ⟨State.signalled_of_evt_zero he, rfl, hrep⟩
  | some i =>
    have hstep := step_span v rest s hready hi
    obtain ⟨t, hexec⟩ : ∃ t, exec i (({ s with pending := rest } : State).beginEdge v) = .next t := ⟨_, exec_next i _⟩
    obtain ⟨hsig, hleft⟩ := exec_matches_reference hc he hi hexec
    have hrep := State.rep_of_coherent (exec_coherent hc hi hexec)
    rw [hcfg, hbuf] at hsig hleft
    rw [exec_cfg hexec, hcfg] at hrep
    exact ⟨t, hstep.trans hexec, hsig, hleft, hrep⟩

/-! ### One edge -/

/-- The byte an edge accepts, if any (R202). -/
def State.acceptedAt (v : PortVector) (s : State) : List Byte := if s.accepts v then [v.inData] else []

/-- One edge without reset, whether or not it accepts a byte, as R112 reads it. -/
theorem State.tick_matches_reference {s : State} {v : PortVector} (hI : s.Inv) (hrst : v.rst = false) :
    ∃ t, s.tick v = .next t ∧ t.Inv ∧ t.cfg = s.cfg ∧
      t.signalled = (decodeAll s.cfg.mask (s.bufAt v ++ s.acceptedAt v)).1 ∧
      t.buf = undecided s.cfg.mask (s.bufAt v ++ s.acceptedAt v) := by
  suffices hedge : ∃ t, step (s.atEdge v []) = .next t ∧
      t.signalled = (decodeAll s.cfg.mask (s.bufAt v ++ s.acceptedAt v)).1 ∧
      t.buf = undecided s.cfg.mask (s.bufAt v ++ s.acceptedAt v) by
    obtain ⟨t, hstep, hsig, hbuf⟩ := hedge
    exact ⟨t, hstep, stepKeepsTheInvariant _ t (hI.withEnvironment s.speedBps [.edge v]) hstep,
      parametersNeverChange (s.atEdge v []) t hstep, hsig, hbuf⟩
  cases ha : s.accepts v with
  | true =>
    obtain ⟨t, hstep, hsig, hbuf, -⟩ :=
      acceptedByteMatchesTheReference s v [] ⟨hrst, hI.coherent, (State.accepts_eq_true v s).1 ha⟩
    simp only [State.acceptedAt, ha, if_true]
    exact ⟨t, hstep, hsig, hbuf⟩
  | false =>
    have hc := State.beginEdge_coherent v { s with pending := [] } hI.coherent
    obtain ⟨why, hd⟩ := State.decode_buf_of_coherent _ hc
    have hwait := decodeStep_of_decode_wait hd
    have hbuf : (({ s with pending := [] } : State).beginEdge v).buf = s.bufAt v := by rw [State.beginEdge_eq]; rfl
    rw [State.beginEdge_cfg, hbuf] at hwait
    refine ⟨_, step_noByte v [] s hrst hI.coherent ha, ?_⟩
    simp only [State.acceptedAt, ha, Bool.false_eq_true, if_false, List.append_nil]
    rw [decodeAll_of_wait hwait, undecided_of_wait hwait]
    exact ⟨State.signalled_of_evt_zero (State.beginEdge_evt v _), hbuf⟩

/-! ### A run -/

@[simp] theorem flatten_pushByte (b : Byte) (segs : List (List Byte)) : (pushByte b segs).flatten = b :: segs.flatten := by
  cases segs <;> rfl

/-- The bytes accepted over a run that starts with an edge without reset: a `clear` opens a new stretch and drops no byte. -/
theorem Obs.accepted_after {v : PortVector} (hrst : v.rst = false) (s t : State) (o : Obs) :
    (Obs.after v s t o).accepted = s.acceptedAt v ++ o.accepted := by
  cases ha : s.accepts v <;> cases hclear : v.clear <;>
    simp [Obs.after, Obs.accepted, State.acceptedAt, hrst, ha, hclear]

/-- The run over `vs` from `s`, as R112 reads it when the logical buffer is `B` at its start. -/
def State.RunMatches (vs : List PortVector) (s : State) (B : List Byte) : Prop :=
  ∃ o, s.observe vs = some o ∧ o.final.Inv ∧ o.final.cfg = s.cfg ∧
    o.final.buf = undecided s.cfg.mask (B ++ o.accepted) ∧
    o.outs = (decodeAll s.cfg.mask (B ++ o.accepted)).1 ∧
    ∀ e ∈ o.evts, evtLegal e

theorem State.runMatches_nil {s : State} (hI : s.Inv) : s.RunMatches [] s.buf := by
  obtain ⟨why, hd⟩ := State.decode_buf_of_coherent s hI.coherent
  have hwait := decodeStep_of_decode_wait hd
  refine ⟨_, rfl, hI, rfl, ?_⟩
  simp [Obs.accepted, decodeAll_of_wait hwait, undecided_of_wait hwait]

/-- An edge without reset in front of a run: the edge matches the reference on its own byte, and the pass over the whole is a
pass over the edge's bytes followed by one over the rest (`decodeAll_append`). -/
theorem State.runMatches_cons {s : State} {v : PortVector} {vs : List PortVector} (hI : s.Inv) (hrst : v.rst = false)
    (hrest : ∀ t : State, t.Inv → t.RunMatches vs t.buf) : s.RunMatches (v :: vs) (s.bufAt v) := by
  obtain ⟨t, htick, htI, htcfg, hsig, hbuf⟩ := State.tick_matches_reference hI hrst
  obtain ⟨o, hobs, hfinal, hcfg, hleft, houts, hevts⟩ := hrest t htI
  obtain ⟨hall, hund⟩ := decodeAll_append s.cfg.mask (s.bufAt v ++ s.acceptedAt v) o.accepted
  rw [htcfg, hbuf] at hleft houts
  refine ⟨Obs.after v s t o, by simp [State.observe, htick, hobs], hfinal, hcfg.trans htcfg, ?_, ?_, ?_⟩
  · rw [Obs.accepted_after hrst, ← List.append_assoc, hund]
    exact hleft
  · rw [Obs.accepted_after hrst, ← List.append_assoc, hall, ← hsig, ← houts]
    rfl
  · exact List.forall_mem_cons.2 ⟨htI.events, hevts⟩

/-- A run without reset and clear matches the reference from whatever its buffer holds at the start. -/
theorem State.runMatches_of_noClear {vs : List PortVector} {s : State} (hI : s.Inv) (hrst : noReset vs) (hclear : noClear vs) :
    s.RunMatches vs s.buf := by
  induction vs generalizing s with
  | nil => exact State.runMatches_nil hI
  | cons v vs ih =>
    obtain ⟨hv, hrst⟩ := List.forall_mem_cons.1 hrst
    obtain ⟨hvc, hclear⟩ := List.forall_mem_cons.1 hclear
    have hbuf : s.bufAt v = s.buf := by simp [State.bufAt, hvc]
    exact hbuf ▸ State.runMatches_cons hI hv fun t ht => ih ht hrst hclear

/-- Settles O31: the buffer is empty at the first edge, after its `clear` if it has one, and the run from there matches
(`State.runMatches_cons`, `State.runMatches_of_noClear`). -/
theorem stateMachineEqualsReference : Obligations.StateMachineEqualsReference := by
  intro s vs hI hrst hclear hstart
  have hrun : s.RunMatches vs [] := by
    cases vs with
    | nil =>
      obtain hbuf | ⟨v, rest, hvs, -⟩ := hstart
      · exact hbuf ▸ State.runMatches_nil hI
      · cases hvs
    | cons v vs =>
      obtain ⟨hv, hrst⟩ := List.forall_mem_cons.1 hrst
      have hbuf : s.bufAt v = [] := by
        obtain hbuf | ⟨v', rest, hvs, hvc⟩ := hstart
        · simp [State.bufAt, hbuf]
        · cases hvs
          simp [State.bufAt, hvc]
      exact hbuf ▸ State.runMatches_cons hI hv fun t ht => State.runMatches_of_noClear ht hrst hclear
  obtain ⟨o, hobs, hfinal, hcfg, hleft, houts, hevts⟩ := hrun
  have hrep := State.rep_of_coherent hfinal.coherent
  rw [hcfg, hleft] at hrep
  exact ⟨o, hobs, hrep, houts, hevts⟩

end Sys2Proof.Machine
end

section
/-! Data frames (R130 to R136): what DATA_FRAME does with either terminator, and the byte rules in DATA. -/

namespace Sys2Proof.Machine

/-! ### The instruction -/

/-- DATA_FRAME with the good terminator emits the frame of its operands (R135). -/
theorem exec_dataFrame_termByte (ext rsv : Bool) (id : BitVec 16) (payload : List Byte) (s : State) :
    exec (.dataFrame ext rsv id payload termByte) s = .next { s with
      evt := s.evt ||| 0x10
      out := OutRegs.emit (dataFrameOf ext id payload) s.sampledTs
      parse := { s.parse with st := .hunt, pos := 0 }
      buf := [] } :=
  exec_next (.dataFrame ext rsv id payload termByte) s

/-- Settles O6: the emitted lanes are the padded payload (`getElem_padPayload`), and the frame reads back whole
(`State.outFrame_emit`). -/
theorem dataFrameEmitsItsFrame : Obligations.DataFrameEmitsItsFrame := by
  intro ext rsv id payload s hlen
  refine ⟨_, exec_dataFrame_termByte ext rsv id payload s, rfl, rfl, ?_, rfl, ?_, rfl, State.outFrame_emit s hlen, rfl, rfl, rfl⟩
  · exact Nat.mod_eq_of_lt (show payload.length < 2 ^ 4 by omega)
  · exact getElem_padPayload payload

/-- Settles O7: the branch of the other terminators. -/
theorem dataFrameWithBadTerminatorIsDropped : Obligations.DataFrameWithBadTerminatorIsDropped := by
  intro ext rsv id payload term s hterm
  exact (exec_next (.dataFrame ext rsv id payload term) s).trans (congrArg Host.Outcome.next (if_neg hterm))

/-! ### The identifier and payload bytes -/

theorem append_eq_identOf (hi lo : Byte) : hi ++ lo = identOf lo hi :=
  wId_eq_identOf _ (identLo_append hi lo) (identHi_append hi lo)

/-- The low byte of an identifier, in place, is the mask of R133. -/
theorem identLo_zeroExtend (id : BitVec 16) : (identLo id).zeroExtend 16 = id &&& 0x00FF := by
  have hmask : ∀ i : Fin 16, (0x00FF : BitVec 16).getLsbD i = decide (i.val < 8) := by decide
  apply BitVec.eq_of_getLsbD_eq
  intro i hi
  have hbit := hmask ⟨i, hi⟩
  rw [BitVec.getLsbD_and, hbit]
  simp [identLo, hi, Bool.and_comm]

/-- The high byte of an identifier, in place, is the mask of R132. -/
theorem identHi_zeroExtend_shiftLeft (id : BitVec 16) : (identHi id).zeroExtend 16 <<< 8 = id &&& 0xFF00 := by
  have hmask : ∀ i : Fin 16, (0xFF00 : BitVec 16).getLsbD i = decide (8 ≤ i.val) := by decide
  apply BitVec.eq_of_getLsbD_eq
  intro i hi
  have hbit := hmask ⟨i, hi⟩
  rw [BitVec.getLsbD_and, hbit]
  by_cases h : i < 8
  · simp [h]
  · have hi' : 8 + (i - 8) = i := by omega
    have h8 : i - 8 < 8 := by omega
    simp [identHi, h, hi, hi', h8]
    omega

theorem identHi_append_eq_mask (id : BitVec 16) (b : Byte) : identHi id ++ b = (id &&& 0xFF00#16) ||| b.zeroExtend 16 := by
  rw [append_eq_identOf, identOf, identHi_zeroExtend_shiftLeft, BitVec.or_comm]
  rfl

theorem append_identLo_eq_mask (id : BitVec 16) (b : Byte) : b ++ identLo id = (id &&& 0x00FF#16) ||| (b.zeroExtend 16 <<< 8) := by
  rw [append_eq_identOf, identOf, identLo_zeroExtend]
  rfl

/-- The bytes before the terminator as R132, R133 and R134 write them. -/
theorem ParseRegs.dataByte_eq (b : Byte) (p : ParseRegs) :
    p.dataByte b =
      if p.pos = 2 then { p with pos := 3, wId := (p.wId &&& 0xFF00#16) ||| b.zeroExtend 16 }
      else if p.pos = 3 then { p with pos := 4, wId := (p.wId &&& 0x00FF#16) ||| (b.zeroExtend 16 <<< 8) }
      else { p with pos := p.pos + 1, wPl := p.wPl.setIfInBounds (p.pos.toNat - 4) b } := by
  rw [← identHi_append_eq_mask, ← append_identLo_eq_mask]
  rfl

/-- Settles O12: before the terminator the byte completes no span, so it follows the rule of its offset (`ParseRegs.dataByte_eq`). -/
theorem dataByteRules : Obligations.DataByteRules := by
  intro s v rest hready hclear hst hpos
  have hbegin := State.beginEdge_of_ready_noClear rest hready hclear
  have hspan : (({ s with pending := rest } : State).beginEdge v).spanInstr v.inData = none := by
    simp [hbegin, State.spanInstr, hst, Nat.ne_of_lt hpos]
  rw [step_prefix v rest s hready hspan, hbegin]
  simp only [State.acceptPrefix, ParseRegs.advance, hst, ParseRegs.dataByte_eq]
  rfl

/-! ### The terminator -/

/-- The byte at the terminator's offset completes the data frame held in the working registers. -/
theorem step_terminator {s : State} {v : PortVector} (rest : List Stimulus) (hready : s.readyFor v) (hclear : v.clear = false)
    (hst : s.parse.st = .data) (hpos : s.parse.pos.toNat = s.parse.wLen.toNat + 4) :
    step (s.atEdge v rest) =
      exec (.dataFrame s.parse.wExt (typeRsv (s.buf.getD 1 0)) s.parse.wId s.parse.payload v.inData)
        { s with inp := v, pending := rest, evt := 0 } := by
  have hbegin := State.beginEdge_of_ready_noClear rest hready hclear
  rw [← hbegin]
  refine step_span v rest s hready ?_
  simp [hbegin, State.spanInstr, hst, hpos]

theorem ParseRegs.length_payload (p : ParseRegs) : p.payload.length = p.wLen.toNat := by
  have := p.wLen.isLt
  simp [ParseRegs.payload]
  omega

/-- Where the unused lanes are 0 (R37), emitting the payload operand copies the register file `w_pl` whole (R135). -/
theorem padPayload_payload {p : ParseRegs} (h : ∀ i : Fin 15, p.wLen.toNat ≤ i.val → p.wPl[i] = 0) :
    padPayload p.payload = p.wPl := by
  ext i hi : 1
  by_cases hlen : i < p.wLen.toNat
  · simp [padPayload, ParseRegs.payload, hlen, hi]
  · have hlane : p.wPl[i] = 0 := h ⟨i, hi⟩ (Nat.le_of_not_lt hlen)
    simp [padPayload, ParseRegs.payload, hlen, hlane]

/-- The frame of the working registers, in the output registers (R135). -/
theorem OutRegs.emit_workingRegs {s : State} (hc : s.coherent = true) (hst : s.parse.st = .data) (ts : Nat) :
    OutRegs.emit (dataFrameOf s.parse.wExt s.parse.wId s.parse.payload) ts =
      { valid := true, id := s.parse.wId, len := s.parse.wLen, ext := s.parse.wExt, pl := s.parse.wPl, ts := ts } := by
  obtain ⟨-, -, -, -, hlanes⟩ := (ParseRegs.legal_iff s.parse).1 (State.legal_of_coherent hc)
  have hpl := padPayload_payload fun i hi => hlanes hst i (.inl hi)
  simp [OutRegs.emit, dataFrameOf, ParseRegs.length_payload, hpl]

theorem State.signals_of_evt_zero {s : State} (h : s.evt = 0) (e : Evt) : s.signals e = false := by
  simp [State.signals, h]

/-- Only an edge that accepts a byte signals (R205). -/
theorem State.readyFor_of_signals {s t : State} {v : PortVector} {rest : List Stimulus} {e : Evt}
    (h : step (s.atEdge v rest) = .next t) (hsig : t.signals e = true) : s.readyFor v := by
  obtain ⟨bps, rest', hpend, -⟩ | ⟨v', rest', hpend, hedge⟩ := step_cases h
  · cases hpend
  · obtain hpend | ⟨hpend, -, -⟩ := hpend <;> cases hpend
    obtain ⟨-, rfl⟩ | ⟨-, -, -, rfl⟩ | ⟨hready, -, -⟩ | ⟨hready, -⟩ := hedge
    · rw [State.signals_of_evt_zero (State.resetBy_evt v _)] at hsig; cases hsig
    · rw [State.signals_of_evt_zero (State.beginEdge_evt v _)] at hsig; cases hsig
    · exact hready
    · exact hready

/-- Settles O13: the terminator runs DATA_FRAME on the working registers (`step_terminator`), whose frame they are
(`OutRegs.emit_workingRegs`); and an edge that signals accepted a byte, for which `o_valid` was 0. -/
theorem goodTerminatorEmits : Obligations.GoodTerminatorEmits := by
  constructor
  · intro s v rest hready hclear hst hpos hterm
    have ⟨_, hc, _, _⟩ := hready
    have hgood : v.inData = termByte := hterm
    rw [step_terminator rest hready hclear hst hpos, hgood, exec_dataFrame_termByte, OutRegs.emit_workingRegs hc hst]
    simp [State.sampledTs]
  · intro s t v rest h hsig
    obtain ⟨-, -, -, hfree⟩ := State.readyFor_of_signals h hsig
    exact hfree

/-- Settles O14: the terminator runs DATA_FRAME (`step_terminator`), which drops the span. -/
theorem badTerminatorDropsTheSpan : Obligations.BadTerminatorDropsTheSpan := by
  intro s v rest hready hclear hst hpos hterm
  rw [step_terminator rest hready hclear hst hpos, dataFrameWithBadTerminatorIsDropped _ _ _ _ _ _ hterm]
  simp

end Sys2Proof.Machine
end

section
/-! The data-frame span in the reference function (R140). -/

namespace Sys2Proof

/-- A step that answers DATA_OK or BADTERM read a whole data frame at the head of the buffer. -/
theorem dataSpan_of_decodeStep {m : DataTypeMask} {B : List Byte} {k : Nat} {o : SpanOutcome}
    (h : decodeStep m B = .consume k o) (ho : o = .badTerm ∨ ∃ f, o = .dataOk f) :
    ∃ T lo hi payload term rest, payload.length = (typeLen T).toNat ∧
      B = startByte :: T :: lo :: hi :: (payload ++ term :: rest) ∧ k = payload.length + 5 ∧
      o = if term = termByte then .dataOk (dataFrameOf (typeExt T) (identOf lo hi) payload) else .badTerm := by
  obtain ⟨c, i, rest, -, hd, hout, rfl⟩ := exists_span_of_decodeStep h
  obtain ⟨b, -, -, rfl⟩ | ⟨T, Y, -, -, -, -, rfl⟩ | ⟨body, ck, -, -, rfl⟩ |
    ⟨T, lo, hi, payload, term, -, hlen, hB, rfl⟩ := decode_span_cases hd
  case inr.inr.inr =>
    exact ⟨T, lo, hi, payload, term, rest, hlen, hB, rfl, (Option.some.inj hout).symm⟩
  all_goals
    cases hout
    simp at ho

/-- Settles O41: the buffer holds the whole frame (`dataSpan_of_decodeStep`), and its terminator decides the outcome. -/
theorem dataSpanIsLengthPlusFive : Obligations.DataSpanIsLengthPlusFive := by
  intro m B k
  constructor
  · intro f h
    obtain ⟨T, lo, hi, payload, term, rest, hlen, rfl, rfl, ho⟩ := dataSpan_of_decodeStep h (.inr ⟨f, rfl⟩)
    split at ho
    case isTrue hterm =>
      cases ho
      have hL : (dataFrameOf (typeExt T) (identOf lo hi) payload).length.toNat = payload.length := by simp [dataFrameOf, hlen]
      exact ⟨by rw [hL], by rw [hL]; rfl, rfl, by simp [hterm], by simp⟩
    case isFalse => cases ho
  · intro h
    obtain ⟨T, lo, hi, payload, term, rest, hlen, rfl, rfl, ho⟩ := dataSpan_of_decodeStep h (.inl rfl)
    split at ho
    case isTrue => cases ho
    case isFalse hterm => exact ⟨by rw [hlen]; exact congrArg (· + 5) (typeLen_toNat T), rfl, by simpa using hterm, by simp⟩

end Sys2Proof
end

section
/-! A whole span received byte by byte (R130, R140): the bytes before the last are kept silently, the last runs the instruction. -/

namespace Sys2Proof.Machine

/-! ### Runs of several edges -/

theorem State.observe_cons {s t : State} {v : PortVector} (h : s.tick v = .next t) (vs : List PortVector) :
    s.observe (v :: vs) = (t.observe vs).map (Obs.after v s t) := by
  simp [State.observe, h]

/-- A run of one more edge at the end. -/
theorem State.observe_append_edge {s t : State} {vs : List PortVector} {last : PortVector} {o : Obs}
    (h : s.observe vs = some o) (hlast : o.final.tick last = .next t) :
    ∃ o', s.observe (vs ++ [last]) = some o' ∧ o'.evts = o.evts ++ [t.evt] ∧ o'.final = t := by
  induction vs generalizing s o with
  | nil =>
    cases h
    exact ⟨_, State.observe_cons hlast [], rfl, rfl⟩
  | cons v vs ih =>
    cases htick : s.tick v with
    | next u =>
      rw [State.observe_cons htick] at h
      obtain ⟨ou, hu, rfl⟩ := Option.map_eq_some_iff.1 h
      obtain ⟨o', hobs, hevts, hfinal⟩ := ih hu hlast
      exact ⟨Obs.after v s u o', by rw [List.cons_append, State.observe_cons htick, hobs]; rfl,
        congrArg (u.evt :: ·) hevts, hfinal⟩
    | fault r => simp [State.observe, htick] at h
    | refused r => simp [State.observe, htick] at h

/-! ### Bytes that wait -/

/-- A buffer whose extension waits is one at which the table's decoder waits already: a decided span stays decided (R109). -/
theorem decode_wait_of_append {c : Config} {B Y : List Byte} (h : decodeStep c.mask (B ++ Y) = .wait) :
    ∃ why, decode c B = .wait why := by
  cases hd : decode c B with
  | wait why => exact ⟨why, rfl⟩
  | span i rest =>
    obtain ⟨o, -, hstep⟩ := decodeStep_of_decode_span hd
    rw [decodeStep_append hstep Y] at h
    cases h

/-- Bytes after which the buffer still waits are accepted and kept, one at each edge, and nothing is signalled (R108). -/
theorem State.observe_waiting {s : State} {vs : List PortVector} {bytes : List Byte} (hc : s.coherent = true)
    (hfree : s.out.valid = false) (hoffer : offersBytes vs bytes) (hwait : decodeStep s.cfg.mask (s.buf ++ bytes) = .wait) :
    ∃ o, s.observe vs = some o ∧ o.evts = List.replicate vs.length 0 ∧ o.final.coherent = true ∧ o.final.cfg = s.cfg ∧
      o.final.out = s.out ∧ o.final.buf = s.buf ++ bytes := by
  obtain ⟨rfl, hedges⟩ := hoffer
  induction vs generalizing s with
  | nil => exact ⟨_, rfl, rfl, hc, rfl, rfl, (List.append_nil _).symm⟩
  | cons v vs ih =>
    obtain ⟨⟨hrst, hclear, hvalid⟩, hedges⟩ := List.forall_mem_cons.1 hedges
    have hbufAt : s.bufAt v = s.buf := by simp [State.bufAt, hclear]
    have hassoc : s.buf ++ (v :: vs).map PortVector.inData = s.buf ++ [v.inData] ++ vs.map PortVector.inData := by simp
    rw [hassoc] at hwait ⊢
    obtain ⟨why, hd⟩ := decode_wait_of_append hwait
    rw [← hbufAt] at hd
    obtain ⟨t, hstep, hevt, hbuf, hout, hcfg, -, -, htc⟩ :=
      undecidedByteIsKeptSilently s v [] why ⟨hrst, hc, hvalid, hfree⟩ hd
    rw [hbufAt] at hbuf
    rw [← hcfg, ← hbuf] at hwait
    obtain ⟨o, hobs, hevts, hfc, hfcfg, hfout, hfbuf⟩ := ih htc (hout ▸ hfree) hedges hwait
    refine ⟨Obs.after v s t o, by rw [State.observe_cons hstep, hobs]; rfl, ?_, hfc, hfcfg.trans hcfg, hfout.trans hout,
      hbuf ▸ hfbuf⟩
    rw [List.length_cons, List.replicate_succ, ← hevts, ← hevt]
    rfl

/-- The last byte of an offer, and the edge that offers it. -/
theorem offersBytes_append_edge {vs : List PortVector} {last : PortVector} {bytes : List Byte} {b : Byte}
    (h : offersBytes (vs ++ [last]) (bytes ++ [b])) :
    offersBytes vs bytes ∧ last.inData = b ∧ last.rst = false ∧ last.clear = false ∧ last.inValid = true := by
  obtain ⟨hbytes, hedges⟩ := h
  rw [List.map_append, List.map_singleton] at hbytes
  obtain ⟨hfront, hb⟩ := List.append_inj' hbytes rfl
  obtain ⟨hedges, hlast⟩ := List.forall_mem_append.1 hedges
  exact ⟨⟨hfront, hedges⟩, List.singleton_inj.1 hb, hlast last (List.mem_singleton_self _)⟩

/-- An accepted byte with which the logical buffer decodes to an instruction runs it (R200). -/
theorem step_of_decode_span {s : State} {v : PortVector} (rest : List Stimulus) {i : Instr} {tail : List Byte}
    (hready : s.readyFor v) (hd : decode s.cfg (s.bufAt v ++ [v.inData]) = .span i tail) :
    step (s.atEdge v rest) = exec i (({ s with pending := rest } : State).beginEdge v) := by
  have ⟨_, hc, _, _⟩ := hready
  have hcoh := State.beginEdge_coherent v { s with pending := rest } hc
  refine step_span v rest s hready (State.spanInstr_of_decode_span _ v.inData hcoh (tail := tail) ?_)
  rw [State.beginEdge_of_ready rest hready]
  exact hd

/-- An encoding received one byte at each edge into an empty buffer: if it waits before its last byte `b`, then nothing is
signalled before the last edge, and that edge runs the instruction in a state `u` that holds the bytes before it. -/
theorem State.observe_encoding {s : State} {vs : List PortVector} {last : PortVector} {bytes : List Byte} {b : Byte} {i : Instr}
    (hc : s.coherent = true) (hbuf : s.buf = []) (hfree : s.out.valid = false) (hrec : i.received = true)
    (hwf : i.wellFormed s.cfg = true) (hencode : encode s.cfg i = bytes ++ [b]) (hwait : decodeStep s.cfg.mask bytes = .wait)
    (hoffer : offersBytes (vs ++ [last]) (encode s.cfg i)) :
    ∃ o u, s.observe (vs ++ [last]) = some o ∧ exec i u = .next o.final ∧
      o.evts = List.replicate bytes.length 0 ++ [o.final.evt] ∧
      u.coherent = true ∧ u.evt = 0 ∧ u.cfg = s.cfg ∧ u.out = s.out ∧ u.buf = bytes ∧ u.inp = last := by
  have hspan := decodeOfEncodeIsTheInstruction s.cfg i [] hrec hwf
  rw [List.append_nil, hencode] at hspan
  obtain ⟨hfront, rfl, hrst, hclear, hvalid⟩ := offersBytes_append_edge (hencode ▸ hoffer)
  rw [← List.nil_append bytes, ← hbuf] at hwait
  obtain ⟨o, hobs, hevts, hoc, hcfg, hout, hkept⟩ := State.observe_waiting hc hfree hfront hwait
  rw [hbuf, List.nil_append] at hkept
  have hlen : vs.length = bytes.length := by rw [← hfront.1, List.length_map]
  have hready : o.final.readyFor last := ⟨hrst, hoc, hvalid, hout ▸ hfree⟩
  have hbufAt : o.final.bufAt last = bytes := by simp [State.bufAt, hclear, hkept]
  rw [← hcfg, ← hbufAt] at hspan
  have hstep := step_of_decode_span [] hready hspan
  rw [State.beginEdge_of_ready_noClear [] hready hclear] at hstep
  obtain ⟨t, hexec⟩ : ∃ t, exec i { o.final with inp := last, pending := [], evt := 0 } = .next t := ⟨_, exec_next i _⟩
  obtain ⟨o', hobs', hevts', rfl⟩ := State.observe_append_edge hobs (hstep.trans hexec)
  exact ⟨o', _, hobs', hexec, by rw [hevts', hevts, hlen], hoc, rfl, hcfg, hout, hkept, rfl⟩

/-! ### DATA_FRAME -/

/-- A data frame without its terminator waits (R109). -/
theorem decodeStep_dataFrame_front {m : DataTypeMask} {T : Byte} (hT : dataClass m T = true) (lo hi : Byte) {payload : List Byte}
    (hlen : payload.length = (typeLen T).toNat) : decodeStep m (startByte :: T :: lo :: hi :: payload) = .wait := by
  rw [decodeStep_dataFrame m hT, if_pos]
  simp [hlen]

/-- Settles O34: the bytes before the terminator wait (`decodeStep_dataFrame_front`), so the last edge runs DATA_FRAME
(`State.observe_encoding`), which emits the frame or drops it. -/
theorem dataFrameReceivedByteByByte : Obligations.DataFrameReceivedByteByByte := by
  intro s ext rsv id payload term vs last hI hbuf hfree hwf hoffer
  have hlen : payload.length ≤ maxLen := by simpa using (Bool.and_eq_true_iff.1 hwf).1
  have hT := dataClass_typeByte hwf (BitVec.ofNat 4 payload.length)
  have hwait := decodeStep_dataFrame_front hT (identLo id) (identHi id) (typeLen_typeByte hlen).symm
  obtain ⟨o, u, hobs, hexec, hevts, -, hevt, hcfg, hout, -, hinp⟩ :=
    State.observe_encoding hI.coherent hbuf hfree rfl hwf rfl hwait hoffer
  have hcount : (vs ++ [last]).length = payload.length + 5 := by
    rw [← List.length_map PortVector.inData, hoffer.1]
    simp [encode]
  refine ⟨o, hobs, hcount, ?_⟩
  by_cases hterm : term = 0x55
  · rw [hterm] at hexec
    obtain ⟨t, hemit, hvalid, -, -, -, -, hts, hframe, htevt, hparse, htbuf⟩ :=
      dataFrameEmitsItsFrame ext rsv id payload u hlen
    obtain rfl : t = o.final := Host.Outcome.next.inj (hemit.symm.trans hexec)
    rw [hinp, hcfg] at hts
    rw [hevts, htevt, hevt]
    exact ⟨by simp [hterm], by rw [hparse], htbuf, fun _ => ⟨hvalid, hframe, hts⟩, fun hne => absurd hterm hne⟩
  · rw [dataFrameWithBadTerminatorIsDropped ext rsv id payload term u hterm] at hexec
    rw [hevts, ← Host.Outcome.next.inj hexec, hevt]
    exact ⟨by rw [if_neg hterm]; simp, rfl, rfl, fun h => absurd h hterm, fun _ => hout⟩

end Sys2Proof.Machine
end

section
/-! Command/response frames (R160 to R164): what CMD_FRAME does, the byte rules in CMD, and the whole span byte by byte. -/

namespace Sys2Proof.Machine

/-! ### The instruction -/

/-- Settles O5: CMD_FRAME signals CMD and its checksum's verdict (`State.signalCkok_eq`), whose bits together are those of R35. -/
theorem commandFrameSignalsAndEmitsNothing : Obligations.CommandFrameSignalsAndEmitsNothing := by
  intro body ck s
  have hbits : s.evt ||| Evt.cmd.bit ||| (if ck = s.parse.csum then Evt.cmdCkok.bit else 0) =
      s.evt ||| if ck = s.parse.csum then 0x0C else 0x04 := by
    rw [BitVec.or_assoc]
    split <;> rfl
  rw [exec_next, ← hbits]
  simp only [State.signalCkok_eq]
  rfl

/-! ### The byte rules -/

/-- Settles O15, by the offset: a body byte completes no span and is added to the sum (R161); offset 19 is the only other one
(R37), and the byte there completes a CMD_FRAME (R162). -/
theorem commandByteRules : Obligations.CommandByteRules := by
  intro s v rest hready hclear hst
  have ⟨_, hc, _, _⟩ := hready
  have hbegin := State.beginEdge_of_ready_noClear rest hready hclear
  by_cases hpos : s.parse.pos.toNat < 19
  · have hne : s.parse.pos ≠ 19#5 := fun h => absurd hpos (by simp [h])
    have hspan : (({ s with pending := rest } : State).beginEdge v).spanInstr v.inData = none := by
      simp [hbegin, State.spanInstr, hst, hne]
    rw [step_prefix v rest s hready hspan, hbegin, if_pos hpos]
    simp [State.acceptPrefix, ParseRegs.advance, ParseRegs.bodyByte, hst]
  · obtain ⟨-, -, hrange, -⟩ := (ParseRegs.legal_iff s.parse).1 (State.legal_of_coherent hc)
    obtain ⟨-, hmax⟩ := hrange hst
    have h19 : s.parse.pos = 19 := BitVec.eq_of_toNat_eq (Nat.le_antisymm hmax (Nat.le_of_not_lt hpos))
    have hspan : (({ s with pending := rest } : State).beginEdge v).spanInstr v.inData =
        some (.cmdFrame (s.buf.drop 2) v.inData) := by
      simp [hbegin, State.spanInstr, hst, h19]
    rw [step_span v rest s hready hspan, hbegin, if_neg hpos, commandFrameSignalsAndEmitsNothing]
    simp

/-! ### The whole span -/

/-- Where the logical buffer begins with the command mark, `csum` is the sum of the body bytes so far (R52, R161). -/
theorem State.csum_of_cmdBuf {s : State} {body : List Byte} (hc : s.coherent = true)
    (hbuf : s.buf = startByte :: cmdMark :: body) : s.parse.csum = checksum body := by
  obtain ⟨-, -, hb⟩ | ⟨-, -, hb⟩ | ⟨-, hrep⟩ | ⟨-, hrep⟩ := (State.coherent_iff s).1 hc
  · simp [hbuf] at hb
  · simp [hbuf] at hb
  · obtain ⟨r, hb, -, -, hcsum⟩ := (ParseRegs.repCmd_iff _ _).1 hrep
    obtain rfl : body = r := by simpa [hbuf] using hb
    exact hcsum
  · obtain ⟨T, r, hb, hT, -⟩ := (ParseRegs.repData_iff _ _ _).1 hrep
    obtain ⟨rfl, -⟩ : cmdMark = T ∧ body = r := by simpa [hbuf] using hb
    exact absurd rfl (ne_cmdMark_of_dataClass hT)

/-- A command frame without its last byte waits (R109). -/
theorem decodeStep_cmdFrame_front (m : DataTypeMask) {body : List Byte} (hlen : body.length = 17) :
    decodeStep m (startByte :: cmdMark :: body) = .wait := by
  rw [decodeStep_cmdFrame, if_pos (by omega)]

/-- Settles O35: the bytes before the last wait (`decodeStep_cmdFrame_front`), so the last edge runs CMD_FRAME
(`State.observe_encoding`), where `csum` is the body's sum (`State.csum_of_cmdBuf`). -/
theorem commandFrameReceivedByteByByte : Obligations.CommandFrameReceivedByteByByte := by
  intro s body ck vs hI hbuf hfree hlen hoffer
  have hcount : vs.length = 20 := by
    rw [← List.length_map PortVector.inData, hoffer.1]
    simp [encode, hlen]
  obtain ⟨front, last, rfl⟩ : ∃ front last, vs = front ++ [last] :=
    ⟨_, _, (List.dropLast_append_getLast (List.ne_nil_of_length_pos (by omega))).symm⟩
  have hwf : (Instr.cmdFrame body ck).wellFormed s.cfg = true := decide_eq_true hlen
  have hwait := decodeStep_cmdFrame_front s.cfg.mask hlen
  obtain ⟨o, u, hobs, hexec, hevts, huc, huevt, -, hout, hubuf, -⟩ :=
    State.observe_encoding hI.coherent hbuf hfree rfl hwf rfl hwait hoffer
  rw [commandFrameSignalsAndEmitsNothing, State.csum_of_cmdBuf huc hubuf, huevt] at hexec
  refine ⟨o, hobs, ?_⟩
  rw [hevts, ← Host.Outcome.next.inj hexec]
  exact ⟨by simp [hlen], rfl, rfl, hout⟩

end Sys2Proof.Machine
end

section
/-! The init command (R181 to R185): its speed code, its bytes and checksum, and the command fed back to the decoder (R187). -/

namespace Sys2Proof

/-! ### The speed code (R181) -/

theorem speedCode_of_key {t : SpeedTable} {bps : Bps} {k : Byte} (h : t.code? bps = some k) : speedCode t bps = k := by
  rw [speedCode, h, Option.getD_some]

theorem speedCode_of_noKey {t : SpeedTable} {bps : Bps} (h : t.code? bps = none) : speedCode t bps = t.code500k := by
  rw [speedCode, h, Option.getD_none]

/-- 500000 is a key of every table (R7). -/
theorem SpeedTable.code?_fallbackBps (t : SpeedTable) : t.code? fallbackBps = some t.code500k := if_pos rfl

/-- Settles O49: 500000 is a key (`SpeedTable.code?_fallbackBps`), so its code is what a speed that is no key gets. -/
theorem speedCodeFallsBackTo500000 : Obligations.SpeedCodeFallsBackTo500000 := by
  intro t bps
  have hfallback : t.code? 500000 = some t.code500k := t.code?_fallbackBps
  refine ⟨fun k hkey => speedCode_of_key hkey, fun hnone => ?_, hfallback⟩
  rw [speedCode_of_noKey hnone, speedCode_of_key hfallback]

/-! ### The bytes and the checksum (R183 to R185) -/

@[simp] theorem checksum_nil : checksum [] = 0 := rfl

theorem checksum_cons (b : Byte) (r : List Byte) : checksum (b :: r) = b + checksum r := by
  simp [checksum, BitVec.ofNat_add]

theorem toNat_checksum (r : List Byte) : (checksum r).toNat = (r.map BitVec.toNat).sum % 256 := BitVec.toNat_ofNat _ _

theorem length_initBody (k : Byte) : (initBody k).length = 17 := rfl

/-- The closed form of R185: the only bytes of the body that are not 0 are 0x12, `k` and two 0x01. -/
theorem checksum_initBody (k : Byte) : checksum (initBody k) = 0x14 + k := by
  calc checksum (initBody k)
      _ = 0x12 + (k + (0x01 + 0x01)) := by simp [initBody, List.replicate_succ, checksum_cons]
      _ = k + (0x12 + (0x01 + 0x01)) := add_left_comm _ _ _
      _ = 0x14 + k := add_comm _ _

/-- The init command is laid out as a command frame (R163 item 5): the two start bytes, the body, the body's sum. -/
theorem initCommand_eq (t : SpeedTable) (bps : Bps) :
    initCommand t bps =
      startByte :: cmdMark :: (initBody (speedCode t bps) ++ [checksum (initBody (speedCode t bps))]) := rfl

theorem length_initCommand (t : SpeedTable) (bps : Bps) : (initCommand t bps).length = cmdSize := rfl

/-- Settles O48: the last byte is the body's sum, whose closed form is `checksum_initBody`. -/
theorem initCommandBytes : Obligations.InitCommandBytes := by
  intro t bps
  constructor
  · rw [initCommand_eq, checksum_initBody]
    rfl
  · have hlast : (initCommand t bps).getD 19 0 = checksum (initBody (speedCode t bps)) := rfl
    have hbody : ((initCommand t bps).drop 2).take 17 = initBody (speedCode t bps) := rfl
    rw [hlast, hbody, toNat_checksum]

/-! ### The command fed back (R187) -/

/-- Settles O50: the command is one whole command frame whose last byte is the sum of its body (`initCommand_eq`). -/
theorem initCommandLoopsBackAsGoodCommand : Obligations.InitCommandLoopsBackAsGoodCommand := by
  intro c bps
  have hstep : decodeStep c.mask (initCommand c.speedCodes bps) =
      .consume (initCommand c.speedCodes bps).length (.cmd true) := by
    rw [length_initCommand, initCommand_eq, decodeStep_wholeCmdFrame c.mask (length_initBody _), decide_eq_true rfl]
  exact (decodeAll_of_wholeSpan hstep).1

end Sys2Proof
end

section
/-! The init-command generator (R180, R186): what INIT_CMD does, and that the `cmd` port follows `speed_bps` alone. -/

namespace Sys2Proof.Machine

/-- Settles O8: INIT_CMD only moves `speed_bps` (`exec_next`), and a lane of the `cmd` port is its byte (`byteLane_packLow`). -/
theorem initCommandShowsOnTheCmdPort : Obligations.InitCommandShowsOnTheCmdPort := fun bps s =>
  ⟨{ s with speedBps := bps }, exec_next (.initCmd bps) s, rfl, length_initCommand s.cfg.speedCodes bps,
    fun _ hi => byteLane_packLow _ hi⟩

/-! ### What moves `speed_bps` -/

@[simp] theorem State.beginEdge_speedBps (v : PortVector) (s : State) : (s.beginEdge v).speedBps = s.speedBps := by
  rw [State.beginEdge_eq]

/-- An accepted byte completes only received instructions: no byte sequence is the generated one (R73). -/
theorem State.received_of_spanInstr {s : State} {b : Byte} {i : Instr} (h : s.spanInstr b = some i) : i.received = true := by
  obtain ⟨-, -, rfl⟩ | ⟨-, -, -, rfl⟩ | ⟨-, -, rfl⟩ | ⟨-, -, rfl⟩ := s.spanInstr_cases b h <;> rfl

/-- No clock edge moves `speed_bps`, over the cases of a step (`step_cases`). -/
theorem step_atEdge_speedBps {s t : State} {v : PortVector} {rest : List Stimulus} (h : step (s.atEdge v rest) = .next t) :
    t.speedBps = s.speedBps := by
  obtain ⟨bps, rest', hdrive, -⟩ | ⟨w, rest', -, hedge⟩ := step_cases h
  · rw [State.atEdge_pending] at hdrive
    cases hdrive
  · have hbegin : (({ s.atEdge v rest with pending := rest' } : State).beginEdge w).speedBps = s.speedBps :=
      State.beginEdge_speedBps w _
    obtain ⟨-, rfl⟩ | ⟨-, -, -, rfl⟩ | ⟨-, -, rfl⟩ | ⟨-, i, hi, hexec⟩ := hedge
    · exact State.resetBy_speedBps w _
    · exact hbegin
    · exact (State.acceptPrefix_speedBps w.inData _).trans hbegin
    · obtain ⟨-, -, hspeed⟩ := exec_environment hexec
      exact (hspeed (State.received_of_spanInstr hi)).trans hbegin

/-! ### The `cmd` port -/

theorem State.cmdPort_congr {s t : State} (htable : s.cfg.speedCodes = t.cfg.speedCodes) (hspeed : s.speedBps = t.speedBps) :
    s.cmdPort = t.cmdPort := by
  rw [State.cmdPort, State.cmdPort, State.initBytes, State.initBytes, htable, hspeed]

/-- Settles O24: the port is a function of the table and `speed_bps` (`State.cmdPort_congr`), and an edge moves neither
(`parametersNeverChange`, `step_atEdge_speedBps`). -/
theorem cmdPortFollowsSpeedAlone : Obligations.CmdPortFollowsSpeedAlone := by
  refine ⟨fun s t => State.cmdPort_congr, fun s bps rest => ?_, fun s t v rest h => ?_⟩
  · rw [step_drive, exec_next]
  · have hcfg : t.cfg = s.cfg := parametersNeverChange (s.atEdge v rest) t h
    exact State.cmdPort_congr (congrArg Config.speedCodes hcfg) (step_atEdge_speedBps h)

end Sys2Proof.Machine
end

section
/-! The stream interface (R200 to R207): the instruction an edge runs, `clear`, a full output register, and what an edge does to
the output register. -/

namespace Sys2Proof.Machine

/-! ### The edge and its byte -/

/-- Settles O16: the register test of R200 agrees with the decoder (`step_of_decode_span`), and an edge that accepts a byte has
nothing to deliver before it (`State.beginEdge_of_ready`). -/
theorem stepRunsTheDecodedInstruction : Obligations.StepRunsTheDecodedInstruction := by
  refine ⟨fun s v rest i tail hready hd => ?_, step_drive⟩
  rw [step_of_decode_span rest hready hd, State.beginEdge_of_ready rest hready]
  rfl

/-- Settles O19: a full register accepts nothing, so the edge only samples its ports and delivers (`step_noByte`). -/
theorem fullOutputStallsAndTransfers : Obligations.FullOutputStallsAndTransfers := by
  intro s v rest hrst hclear hc hfull
  have hstall : s.accepts v = false := (State.accepts_eq_false v s).2 (.inr hfull)
  refine ⟨State.inReady_of_valid hfull, ?_⟩
  rw [step_noByte v rest s hrst hc hstall, State.beginEdge_eq]
  simp [State.bufAt, hclear, hfull]

/-- Settles O18, by the edge's byte: with none the edge only clears and delivers; an accepted one is decoded in the empty buffer,
where 0xAA waits and any other byte is a NOSTART. -/
theorem clearDiscardsOnlyThePartialSpan : Obligations.ClearDiscardsOnlyThePartialSpan := by
  intro s v rest hrst hc hclear
  have hbuf : s.bufAt v = [] := by simp [State.bufAt, hclear]
  by_cases ha : v.inValid = true ∧ s.out.valid = false
  · have hready : s.readyFor v := ⟨hrst, hc, ha⟩
    rw [if_pos ha]
    by_cases hb : v.inData = startByte
    · have hwait : decode s.cfg (s.bufAt v ++ [v.inData]) = .wait .loneStart := by rw [hbuf, hb]; rfl
      rw [step_prefix v rest s hready (State.spanInstr_beginEdge_of_wait hready hwait), State.beginEdge_of_ready rest hready,
        if_pos (show v.inData = 0xAA from hb)]
      simp [State.acceptPrefix, ParseRegs.advance, ParseRegs.startSpan, ParseRegs.toHunt, hclear, hbuf, hb]
    · have hspan : decode s.cfg (s.bufAt v ++ [v.inData]) = .span (.noStart v.inData) [] := by
        rw [hbuf]; exact decode_noStart s.cfg hb []
      rw [step_of_decode_span rest hready hspan, State.beginEdge_of_ready rest hready, noStartSignalsAndDrops _ _ hb,
        if_neg (show ¬ v.inData = 0xAA from hb)]
      simp [ParseRegs.toHunt, hclear, hbuf]
  · have hnone : s.accepts v = false := by
      rw [← Bool.not_eq_true, State.accepts_eq_true]; exact ha
    rw [step_noByte v rest s hrst hc hnone, State.beginEdge_eq, if_neg ha]
    simp [ParseRegs.toHunt, State.bufAt, hclear]

/-! ### The output register over one edge -/

/-- From an empty event vector an instruction signals DATA_OK exactly when it emits, stamped with the sampled `ts` (R135, R207). -/
theorem exec_dataOk_or_out {i : Instr} {s t : State} (he : s.evt = 0) (h : exec i s = .next t) :
    (t.signals .dataOk = false ∧ t.out = s.out) ∨
    (t.signals .dataOk = true ∧ t.out.valid = true ∧ t.out.ts = s.sampledTs) := by
  rw [exec_next] at h
  cases h
  cases i with
  | noStart b => simp [State.signals, he, Evt.bit]
  | badType b => by_cases hb : b = startByte <;> simp [State.signals, State.examineHead_eq, hb, he, Evt.bit]
  | cmdFrame body ck => by_cases hk : ck = s.parse.csum <;> simp [State.signals, State.signalCkok_eq, hk, he, Evt.bit]
  | dataFrame ext rsv id payload term => by_cases ht : term = termByte <;> simp [State.signals, ht, he, Evt.bit]
  | initCmd bps => simp [State.signals, he]

/-- What an edge without reset does to the output register: it at most delivers a waiting frame, or signals DATA_OK and fills the free
register with a frame stamped by its `ts` (R203, R207). -/
theorem step_out_cases {s t : State} {v : PortVector} {rest : List Stimulus} (hrst : v.rst = false)
    (h : step (s.atEdge v rest) = .next t) :
    (t.signals .dataOk = false ∧ t.out = { s.out with valid := s.out.valid && !v.outReady }) ∨
    (t.signals .dataOk = true ∧ s.out.valid = false ∧ t.out.valid = true ∧ t.out.ts = v.ts % 2 ^ s.cfg.tsW) := by
  obtain ⟨bps, rest', hpend, -⟩ | ⟨w, rest', hpend, hedge⟩ := step_cases h
  · cases hpend
  · obtain hpend | ⟨hpend, -, -⟩ := hpend <;> cases hpend
    have hevt := State.beginEdge_evt v { s with pending := rest }
    have hout : (({ s with pending := rest } : State).beginEdge v).out = { s.out with valid := s.out.valid && !v.outReady } := by
      rw [State.beginEdge_eq]
    obtain ⟨hrst', -⟩ | ⟨-, -, -, rfl⟩ | ⟨-, -, rfl⟩ | ⟨⟨-, -, -, hfree⟩, i, -, hexec⟩ := hedge
    · rw [hrst] at hrst'; cases hrst'
    · exact .inl ⟨State.signals_of_evt_zero hevt _, hout⟩
    · exact .inl ⟨State.signals_of_evt_zero hevt _, hout⟩
    · obtain ⟨hsig, hsame⟩ | ⟨hsig, hvalid, hts⟩ := exec_dataOk_or_out hevt hexec
      · exact .inl ⟨hsig, hsame.trans hout⟩
      · refine .inr ⟨hsig, hfree, hvalid, hts.trans ?_⟩
        rw [State.beginEdge_eq]; rfl

/-- The frame an edge takes from the output register, if any (R203). -/
def State.deliveredAt (v : PortVector) (s : State) : List CanFrame := if s.transfers v then [s.outCanFrame] else []

/-- The frame an edge that left this state emitted, if any (R135). -/
def State.emitted (t : State) : List CanFrame := if t.signals .dataOk then [t.outCanFrame] else []

@[simp] theorem framesOf_append (outs outs' : List SpanOutcome) : framesOf (outs ++ outs') = framesOf outs ++ framesOf outs' :=
  List.filterMap_append

/-- One outcome signalled or not: it shows its frame, if it has one. -/
theorem framesOf_ite (c : Prop) [Decidable c] (o : SpanOutcome) :
    framesOf (if c then [o] else []) = if c then o.frame?.toList else [] := by
  split
  · cases h : o.frame? <;> simp [framesOf, h]
  · rfl

/-- The frame among an edge's outcomes is the emitted one. -/
theorem State.map_frame_emitted (t : State) : t.emitted.map CanFrame.frame = framesOf t.signalled := by
  simp only [State.signalled, framesOf_append, framesOf_ite, SpanOutcome.frame?, State.emitted]
  split <;> simp [State.outCanFrame]

/-- No edge without reset loses or doubles a frame: the frame it delivers and the frame it leaves are the frame it found and the
frame it emitted. -/
theorem State.deliveredAt_append_held {s t : State} {v : PortVector} (hrst : v.rst = false) (h : s.tick v = .next t) :
    s.deliveredAt v ++ t.held = s.held ++ t.emitted := by
  obtain ⟨hsig, hout⟩ | ⟨hsig, hfree, hvalid, -⟩ := step_out_cases (rest := []) hrst h
  · cases hfull : s.out.valid <;> cases hready : v.outReady <;>
      simp [State.deliveredAt, State.transfers, State.held, State.emitted, State.outCanFrame, State.outFrame, hsig, hout, hfull,
        hready]
  · simp [State.deliveredAt, State.transfers, State.held, State.emitted, hsig, hfree, hvalid]

/-- An emitted frame carries the `ts` sample of its edge (R207). -/
theorem State.map_capturedAt_emitted {s t : State} {v : PortVector} (hrst : v.rst = false) (h : s.tick v = .next t) :
    t.emitted.map CanFrame.capturedAt = if t.signals .dataOk then [v.ts % 2 ^ s.cfg.tsW] else [] := by
  obtain ⟨hsig, -⟩ | ⟨hsig, -, -, hts⟩ := step_out_cases (rest := []) hrst h
  · simp [State.emitted, hsig]
  · simp [State.emitted, State.outCanFrame, hsig, hts]

end Sys2Proof.Machine
end

section
/-! Runs at the stream interface (R209, R211): what a run without reset delivers and holds, and a source and a consumer that keep
their duties. -/

namespace Sys2Proof.Machine

/-! ### Frames are conserved -/

/-- A run of one edge and more. -/
theorem State.observe_cons_eq_some {s : State} {v : PortVector} {vs : List PortVector} {o : Obs} (h : s.observe (v :: vs) = some o) :
    ∃ t o', s.tick v = .next t ∧ t.observe vs = some o' ∧ o = Obs.after v s t o' := by
  cases htick : s.tick v with
  | next t =>
    rw [State.observe_cons htick] at h
    obtain ⟨o', ho', rfl⟩ := Option.map_eq_some_iff.1 h
    exact ⟨t, o', rfl, ho', rfl⟩
  | fault r => simp [State.observe, htick] at h
  | refused r => simp [State.observe, htick] at h

theorem Obs.transferred_after {v : PortVector} (hrst : v.rst = false) (s t : State) (o : Obs) :
    (Obs.after v s t o).transferred = s.deliveredAt v ++ o.transferred := by
  simp [Obs.after, State.deliveredAt, hrst]

/-- The frames a run without reset delivers and holds at its end are the frame held at its start and then the emitted ones: the
frames signalled, stamped by the edges that signalled them. -/
theorem State.observe_conserves_frames {vs : List PortVector} {s : State} {o : Obs} (hrst : noReset vs) (h : s.observe vs = some o) :
    ∃ emitted, o.transferred ++ o.final.held = s.held ++ emitted ∧
      emitted.map CanFrame.frame = framesOf o.outs ∧ emitted.map CanFrame.capturedAt = o.stamps := by
  induction vs generalizing s o with
  | nil => cases h; exact ⟨[], by simp, rfl, rfl⟩
  | cons v vs ih =>
    obtain ⟨hv, hrst⟩ := List.forall_mem_cons.1 hrst
    obtain ⟨t, o, htick, hobs, rfl⟩ := State.observe_cons_eq_some h
    obtain ⟨later, hkept, hframes, hstamps⟩ := ih hrst hobs
    refine ⟨t.emitted ++ later, ?_, ?_, ?_⟩
    · calc (Obs.after v s t o).transferred ++ o.final.held
        _ = s.deliveredAt v ++ (o.transferred ++ o.final.held) := by rw [Obs.transferred_after hv, List.append_assoc]
        _ = s.deliveredAt v ++ t.held ++ later := by rw [hkept, List.append_assoc]
        _ = s.held ++ (t.emitted ++ later) := by rw [State.deliveredAt_append_held hv htick, List.append_assoc]
    · rw [List.map_append, State.map_frame_emitted, hframes, ← framesOf_append]
      rfl
    · rw [List.map_append, State.map_capturedAt_emitted hv htick, hstamps]
      rfl

/-! ### The stretches between clears -/

/-- The stretches of a run that starts with an edge without reset: the edge's byte goes in front of the first one, and a `clear`
opens that one afresh (R204, R211). -/
theorem Obs.segments_after {v : PortVector} (hrst : v.rst = false) (s t : State) {o : Obs} {S : List Byte} {Ss : List (List Byte)}
    (h : o.segments = S :: Ss) :
    (Obs.after v s t o).segments = (if v.clear then [[]] else []) ++ (s.acceptedAt v ++ S) :: Ss := by
  cases ha : s.accepts v <;> cases hclear : v.clear <;> simp [Obs.after, State.acceptedAt, pushByte, hrst, ha, hclear, h]

/-- The logical buffer of a coherent state holds no whole span (R109). -/
theorem State.decodeAll_buf {s : State} (hc : s.coherent = true) : decodeAll s.cfg.mask s.buf = ([], 0) := by
  obtain ⟨why, hd⟩ := State.decode_buf_of_coherent s hc
  exact decodeAll_of_wait (decodeStep_of_decode_wait hd)

/-- A run without reset signals the reference outcomes of its stretches in order; the first stretch continues the logical buffer. -/
theorem State.observe_segments {vs : List PortVector} {s : State} (hI : s.Inv) (hrst : noReset vs) :
    ∃ o S Ss, s.observe vs = some o ∧ o.segments = S :: Ss ∧
      o.outs = (decodeAll s.cfg.mask (s.buf ++ S)).1 ++ Ss.flatMap fun S => (decodeAll s.cfg.mask S).1 := by
  induction vs generalizing s with
  | nil => exact ⟨_, [], [], rfl, rfl, by simp [State.decodeAll_buf hI.coherent]⟩
  | cons v vs ih =>
    obtain ⟨hv, hrst⟩ := List.forall_mem_cons.1 hrst
    obtain ⟨t, htick, htI, hcfg, hsig, hbuf⟩ := State.tick_matches_reference hI hv
    obtain ⟨o, S, Ss, hobs, hsegs, houts⟩ := ih htI hrst
    have hafter := Obs.segments_after hv s t hsegs
    have hpass : (Obs.after v s t o).outs = (decodeAll s.cfg.mask (s.bufAt v ++ (s.acceptedAt v ++ S))).1 ++
        Ss.flatMap fun S => (decodeAll s.cfg.mask S).1 := by
      obtain ⟨hall, -⟩ := decodeAll_append s.cfg.mask (s.bufAt v ++ s.acceptedAt v) S
      rw [← List.append_assoc, hall, ← hsig, ← hbuf, List.append_assoc, ← hcfg, ← houts]
      rfl
    refine ⟨Obs.after v s t o, ?_⟩
    cases hclear : v.clear
    · refine ⟨s.acceptedAt v ++ S, Ss, by rw [State.observe_cons htick, hobs]; rfl, by simpa [hclear] using hafter, ?_⟩
      simpa [State.bufAt, hclear] using hpass
    · refine ⟨[], (s.acceptedAt v ++ S) :: Ss, by rw [State.observe_cons htick, hobs]; rfl, by simpa [hclear] using hafter, ?_⟩
      simpa [State.bufAt, hclear, State.decodeAll_buf hI.coherent] using hpass

/-- Settles O32: the frames delivered and held are the frames signalled (`State.observe_conserves_frames`), which are those of the
reference passes over the stretches (`State.observe_segments`); at reset no frame is held and the buffer is empty. -/
theorem observationLaw : Obligations.ObservationLaw := by
  intro c vs hc hrst
  obtain ⟨o, S, Ss, hobs, hsegs, houts⟩ := State.observe_segments (State.inv_resetWith hc) hrst
  obtain ⟨emitted, hkept, hframes, hstamps⟩ := State.observe_conserves_frames hrst hobs
  have hemitted : o.transferred ++ o.final.held = emitted := hkept
  have hpasses : o.outs = o.segments.flatMap fun S => (decodeAll c.mask S).1 := by rw [hsegs, houts]; rfl
  refine ⟨o, hobs, ?_, hemitted ▸ hstamps⟩
  rw [hemitted, hframes, hpasses]
  exact List.filterMap_flatMap

/-! ### A source that holds its byte, a consumer that is always ready -/

/-- The ports in a cycle of the holding source: the first byte left, with the cycle's `out_ready` and `ts`. -/
def holdingPorts (cycle : Bool × Nat) (bytes : List Byte) : PortVector :=
  { PortVector.idle with inValid := !bytes.isEmpty, inData := bytes.getD 0 0, outReady := cycle.1, ts := cycle.2 }

/-- The bytes the holding source still has to offer after a cycle. -/
def State.bytesLeft (cycle : Bool × Nat) (bytes : List Byte) (s : State) : List Byte :=
  if s.accepts (holdingPorts cycle bytes) then bytes.drop 1 else bytes

theorem State.runHolding_cons {s t : State} {cycle : Bool × Nat} {bytes : List Byte}
    (h : s.tick (holdingPorts cycle bytes) = .next t) (cycles : List (Bool × Nat)) :
    s.runHolding (cycle :: cycles) bytes =
      (t.runHolding cycles (s.bytesLeft cycle bytes)).map (Obs.after (holdingPorts cycle bytes) s t) := by
  rw [holdingPorts] at h
  simp only [State.runHolding, h]
  rfl

theorem State.acceptedAt_append_bytesLeft (cycle : Bool × Nat) (bytes : List Byte) (s : State) :
    s.acceptedAt (holdingPorts cycle bytes) ++ s.bytesLeft cycle bytes = bytes := by
  cases bytes with
  | nil => simp [State.acceptedAt, State.bytesLeft, State.accepts, holdingPorts]
  | cons b bytes =>
    simp only [State.acceptedAt, State.bytesLeft]
    split <;> rfl

/-- With a ready consumer a byte and its frame leave the block within two cycles: one accepts the byte, and one delivers the frame
that it may have completed. -/
theorem State.holdingEdge_progress {s t : State} {cycle : Bool × Nat} {bytes : List Byte} (hI : s.Inv) (hready : cycle.1 = true)
    (h : s.tick (holdingPorts cycle bytes) = .next t) :
    2 * (s.bytesLeft cycle bytes).length + t.out.valid.toNat ≤ 2 * bytes.length + s.out.valid.toNat - 1 := by
  cases ha : s.accepts (holdingPorts cycle bytes) with
  | true =>
    obtain ⟨hoffer, -⟩ := (State.accepts_eq_true _ _).1 ha
    have hsome : 0 < bytes.length := List.length_pos_of_ne_nil (by simpa [holdingPorts] using hoffer)
    have hbit := Bool.toNat_le t.out.valid
    simp only [State.bytesLeft, ha, if_true, List.length_drop]
    omega
  | false =>
    have hfree : t.out.valid = false := by
      cases (step_noByte (holdingPorts cycle bytes) [] s rfl hI.coherent ha).symm.trans h
      rw [State.beginEdge_eq]
      simp [holdingPorts, hready]
    simp only [State.bytesLeft, ha, Bool.false_eq_true, if_false, hfree, Bool.toNat_false]
    obtain hoffer | hfull := (State.accepts_eq_false _ _).1 ha
    · have hnone : bytes = [] := by simpa [holdingPorts] using hoffer
      simp [hnone]
    · simp [hfull]

/-- The run of the holding source and a ready consumer is one over a stimulus without reset and clear; given two cycles for each
byte, and one more for a frame held at its start, all bytes are accepted and no frame is held at its end. -/
theorem State.runHolding_drains {cycles : List (Bool × Nat)} {bytes : List Byte} {s : State} (hI : s.Inv)
    (hready : ∀ y ∈ cycles, y.1 = true) (htime : 2 * bytes.length + s.out.valid.toNat ≤ cycles.length) :
    ∃ vs o, noReset vs ∧ noClear vs ∧ s.observe vs = some o ∧ s.runHolding cycles bytes = some o ∧
      o.accepted = bytes ∧ o.final.out.valid = false := by
  induction cycles generalizing s bytes with
  | nil =>
    rw [List.length_nil] at htime
    obtain rfl : bytes = [] := List.length_eq_zero_iff.1 (by omega)
    exact ⟨[], _, by simp [noReset], by simp [noClear], rfl, rfl, rfl, by simpa using htime⟩
  | cons cycle cycles ih =>
    obtain ⟨hcycle, hready⟩ := List.forall_mem_cons.1 hready
    obtain ⟨t, htick, htI, -⟩ := State.tick_matches_reference (v := holdingPorts cycle bytes) hI rfl
    have hprogress := State.holdingEdge_progress hI hcycle htick
    rw [List.length_cons] at htime
    obtain ⟨vs, o, hrst, hclear, hobs, hrun, haccepted, hfree⟩ := ih (bytes := s.bytesLeft cycle bytes) htI hready (by omega)
    refine ⟨holdingPorts cycle bytes :: vs, Obs.after (holdingPorts cycle bytes) s t o, List.forall_mem_cons.2 ⟨rfl, hrst⟩,
      List.forall_mem_cons.2 ⟨rfl, hclear⟩, by rw [State.observe_cons htick, hobs]; rfl,
      by rw [State.runHolding_cons htick, hrun]; rfl, ?_, hfree⟩
    rw [Obs.accepted_after rfl, haccepted, State.acceptedAt_append_bytesLeft]

/-- Settles O33: all bytes are accepted and the register is empty at the end (`State.runHolding_drains`), so the frames delivered
are the frames signalled (`State.observe_conserves_frames`), which are those of one reference pass (`stateMachineEqualsReference`). -/
theorem holdingSourceAndReadyConsumerLoseNothing : Obligations.HoldingSourceAndReadyConsumerLoseNothing := by
  intro c bytes cycles hc hready htime
  have hI := State.inv_resetWith hc
  obtain ⟨vs, o, hrst, hclear, hobs, hrun, haccepted, hfree⟩ := State.runHolding_drains hI hready htime
  obtain ⟨emitted, hkept, hframes, -⟩ := State.observe_conserves_frames hrst hobs
  obtain ⟨o', hobs', -, houts, -⟩ := stateMachineEqualsReference (State.resetWith c) vs hI hrst
    (fun v hv => hclear v (List.mem_of_mem_drop hv)) (.inl rfl)
  obtain rfl : o = o' := Option.some.inj (hobs.symm.trans hobs')
  have hdelivered : o.transferred = emitted := by simpa [State.held, hfree, State.resetWith, State.reset, OutRegs.reset] using hkept
  refine ⟨o, hrun, haccepted, ?_, hfree⟩
  rw [hdelivered, hframes, houts, haccepted]
  rfl

end Sys2Proof.Machine
end

section
/-! The block raises no exception (R230): every state inside the invariant has a next state, whatever the move. And the event
vector of one edge (R205, R206, R235, R240). -/

namespace Sys2Proof.Machine

/-! ### Progress -/

/-- Every edge of a coherent state has a next state: a reset edge resets, an edge with no byte only samples its ports and
delivers, and an accepted byte is decoded (`acceptedByteMatchesTheReference`). -/
theorem step_atEdge_progress {s : State} (hc : s.coherent = true) (v : PortVector) (rest : List Stimulus) :
    ∃ t, step (s.atEdge v rest) = .next t := by
  cases hrst : v.rst with
  | true => exact ⟨_, step_reset v rest s hrst⟩
  | false =>
    cases ha : s.accepts v with
    | false => exact ⟨_, step_noByte v rest s hrst hc ha⟩
    | true =>
      obtain ⟨t, hstep, -⟩ :=
        acceptedByteMatchesTheReference s v rest ⟨hrst, hc, (State.accepts_eq_true v s).1 ha⟩
      exact ⟨t, hstep⟩

/-- Every move has a next state: an edge, the idle edge when no stimulus is left, or a change of `speed_bps`. -/
theorem step_progress {s : State} (hc : s.coherent = true) : ∃ t, step s = .next t := by
  cases hp : s.pending with
  | nil =>
    rw [step_nil s hp]
    exact step_atEdge_progress hc .idle []
  | cons move rest =>
    have hs : s = { s with pending := move :: rest } := by rw [← hp]
    rw [hs]
    cases move with
    | edge v => exact step_atEdge_progress hc v rest
    | drive bps => exact ⟨_, exec_next (.initCmd bps) { s with pending := rest }⟩

/-- A machine that can always step inside what its steps keep runs on for any number of steps. -/
theorem run_progress (M : Host.Core) (P : M.State → Prop) (hstep : ∀ s, P s → ∃ t, M.step s = .next t ∧ P t) :
    ∀ (n : Nat) (s : M.State), P s → ∃ t, M.run n s = .next t
  | 0, s, _ => ⟨s, rfl⟩
  | n + 1, s, hs => by
    obtain ⟨u, hnext, hu⟩ := hstep s hs
    rw [Host.Core.run, hnext]
    exact run_progress M P hstep n u hu

/-- Settles O29, by induction on the number of steps (`run_progress`): a state inside the invariant has a next state
(`step_progress`), which is inside it again (`stepKeepsTheInvariant`). -/
theorem noStimulusStopsTheBlock : Obligations.NoStimulusStopsTheBlock := by
  intro s n hI
  refine run_progress Sys2Proof.core State.Inv (fun s hI => ?_) n s hI
  obtain ⟨t, hnext⟩ := step_progress hI.coherent
  exact ⟨t, hnext, stepKeepsTheInvariant s t hI hnext⟩

/-! ### The events of one edge -/

/-- What an edge without reset can do: it accepts no byte, or a byte of a span that goes on, or one that completes an
instruction. -/
theorem step_atEdge_cases {s t : State} {v : PortVector} {rest : List Stimulus} (hrst : v.rst = false)
    (h : step (s.atEdge v rest) = .next t) :
    (s.accepts v = false ∧ t = ({ s with pending := rest } : State).beginEdge v) ∨
    (s.readyFor v ∧ t = (({ s with pending := rest } : State).beginEdge v).acceptPrefix v.inData) ∨
    (s.readyFor v ∧ ∃ i, (({ s with pending := rest } : State).beginEdge v).spanInstr v.inData = some i ∧
      exec i (({ s with pending := rest } : State).beginEdge v) = .next t) := by
  obtain ⟨bps, rest', hpend, -⟩ | ⟨w, rest', hpend, hedge⟩ := step_cases h
  · cases hpend
  · obtain hpend | ⟨hpend, -, -⟩ := hpend <;> cases hpend
    obtain ⟨hrst', -⟩ | ⟨-, -, ha, ht⟩ | ⟨hready, -, ht⟩ | ⟨hready, hexec⟩ := hedge
    · rw [hrst] at hrst'; cases hrst'
    · exact .inl ⟨ha, ht⟩
    · exact .inr (.inl ⟨hready, ht⟩)
    · exact .inr (.inr ⟨hready, hexec⟩)

/-- The event vector of an edge is one of R206, from any state: the edge starts an empty one. -/
theorem step_atEdge_evtLegal {s t : State} {v : PortVector} {rest : List Stimulus} (hrst : v.rst = false)
    (h : step (s.atEdge v rest) = .next t) : evtLegal t.evt := by
  obtain ⟨-, rfl⟩ | ⟨-, rfl⟩ | ⟨-, i, -, hexec⟩ := step_atEdge_cases hrst h
  · simp
  · simp
  · exact exec_evtLegal (State.beginEdge_evt v _) hexec

/-- A legal event vector names at most one outcome, or BADTYPE then NOSTART, and is the union of their bits: `CMD_CKOK` is a
qualifier of CMD (R206, R235). -/
theorem State.signalled_of_evtLegal {s : State} (h : evtLegal s.evt) :
    s.evt = evtOf s.signalled ∧ (s.signalled.length ≤ 1 ∨ s.signalled = [.badType, .noStart]) := by
  simp only [evtLegal, List.mem_cons, List.not_mem_nil, or_false] at h
  obtain he | he | he | he | he | he | he | he := h <;>
    simp [State.signalled, State.signals, he, evtOf, evtOfOutcome, Evt.bit]

/-- Of the instructions that a byte completes only BADTYPE signals two outcomes, when its second byte is no 0xAA (R235). -/
theorem State.badTypePair_of_exec {s t : State} {b : Byte} {i : Instr} (he : s.evt = 0) (hi : s.spanInstr b = some i)
    (h : exec i s = .next t) (hpair : t.signalled = [.badType, .noStart]) :
    s.parse.st = .start ∧ b ≠ startByte ∧ b ≠ cmdMark ∧ dataClass s.cfg.mask b = false := by
  obtain ⟨-, -, rfl⟩ | ⟨hst, hcmd, hT, rfl⟩ | ⟨-, -, rfl⟩ | ⟨-, -, rfl⟩ := State.spanInstr_cases s b hi
  · simp [(exec_noStart_signalled he h).1] at hpair
  · refine ⟨hst, fun hb => ?_, hcmd, hT⟩
    simp [(exec_badType_signalled he h).1, hb] at hpair
  · simp [(exec_cmdFrame_signalled he h).1] at hpair
  · simp [(exec_dataFrame_signalled he s.parse.length_payload_le h).1] at hpair

/-- A cleared parse state is HUNT (R204), so before the byte of an edge only an edge without `clear` is in START. -/
theorem State.beginEdge_st_start {v : PortVector} {s : State} (h : (s.beginEdge v).parse.st = .start) :
    v.clear = false ∧ s.parse.st = .start := by
  rw [State.beginEdge_eq] at h
  cases hclear : v.clear with
  | false => exact ⟨rfl, by simpa [hclear] using h⟩
  | true => simp [hclear] at h

/-- Where BADTYPE then NOSTART comes from (R107, R235): a byte accepted in START that opens no frame and is no head. -/
theorem step_badTypePair_iff {s t : State} {v : PortVector} {rest : List Stimulus} (hrst : v.rst = false)
    (h : step (s.atEdge v rest) = .next t) :
    t.signalled = [.badType, .noStart] ↔
      s.readyFor v ∧ v.clear = false ∧ s.parse.st = .start ∧ v.inData ≠ startByte ∧ v.inData ≠ cmdMark ∧
      dataClass s.cfg.mask v.inData = false := by
  constructor
  · intro hpair
    obtain ⟨-, rfl⟩ | ⟨-, rfl⟩ | ⟨hready, i, hi, hexec⟩ := step_atEdge_cases hrst h
    · simp [State.signalled_of_evt_zero] at hpair
    · simp [State.signalled_of_evt_zero] at hpair
    · obtain ⟨hst, hAA, hcmd, hT⟩ := State.badTypePair_of_exec (State.beginEdge_evt v _) hi hexec hpair
      obtain ⟨hclear, hst⟩ := State.beginEdge_st_start hst
      rw [State.beginEdge_cfg] at hT
      exact ⟨hready, hclear, hst, hAA, hcmd, hT⟩
  · rintro ⟨hready, hclear, hst, hAA, hcmd, hT⟩
    have hstep := startByteRule s v rest hready hclear hst
    have hclass : ¬ v.inData &&& s.cfg.mask.bits = 0xC0 := of_decide_eq_false hT
    rw [if_neg (show ¬ v.inData = 0x55 from hcmd), if_neg hclass, if_neg (show ¬ v.inData = 0xAA from hAA)] at hstep
    cases h.symm.trans hstep
    simp [State.signalled, State.signals, Evt.bit]

/-- Settles O21: the event vector is a legal one (`step_atEdge_evtLegal`), which fixes the outcomes named
(`State.signalled_of_evtLegal`); it is empty without a byte (`step_noByte`) and after a byte that decides nothing
(`undecidedByteIsKeptSilently`); the pair is `step_badTypePair_iff`. -/
theorem oneEdgeSignalsOneOutcomeOrTheBadTypePair : Obligations.OneEdgeSignalsOneOutcomeOrTheBadTypePair := by
  intro s t v rest hrst h
  have hc : s.coherent = true := by
    by_contra hincoherent
    rw [step_stuck v rest s hrst (eq_false_of_ne_true hincoherent)] at h
    cases h
  have hready : s.accepts v = true ↔ s.readyFor v := by
    simp [State.accepts_eq_true, State.readyFor, hrst, hc]
  have hlegal := step_atEdge_evtLegal hrst h
  obtain ⟨hnamed, hcount⟩ := State.signalled_of_evtLegal hlegal
  refine ⟨hlegal, hnamed, fun ha => ?_, fun ha ⟨why, hwait⟩ => ?_, hcount, ?_⟩
  · cases h.symm.trans (step_noByte v rest s hrst hc ha)
    exact State.beginEdge_evt v _
  · obtain ⟨t', hstep, hsilent, -⟩ := undecidedByteIsKeptSilently s v rest why (hready.1 ha) hwait
    cases h.symm.trans hstep
    exact hsilent
  · rw [hready]
    exact step_badTypePair_iff hrst h

/-- Settles O20: the edge accepts no byte and delivers nothing, so it only samples its ports and empties the event vector
(`step_noByte`, `State.beginEdge_eq`); with no stimulus left it is such an edge (`step_nil`). -/
theorem idleEdgeOnlyClearsEvents : Obligations.IdleEdgeOnlyClearsEvents := by
  have hedge : ∀ (s : State) (v : PortVector) (rest : List Stimulus), v.rst = false → v.clear = false → s.coherent = true →
      v.inValid = false → (s.out.valid = false ∨ v.outReady = false) →
      step (s.atEdge v rest) = .next { s with inp := v, pending := rest, evt := 0 } := by
    intro s v rest hrst hclear hc hoffer hkept
    have hvalid : (s.out.valid && !v.outReady) = s.out.valid := by
      obtain hfree | hwaits := hkept
      · simp [hfree]
      · simp [hwaits]
    rw [step_noByte v rest s hrst hc ((State.accepts_eq_false v s).2 (.inl hoffer)), State.beginEdge_eq]
    simp [State.bufAt, hclear, hvalid]
  refine ⟨hedge, fun s hc hp => ?_⟩
  rw [step_nil s hp, hedge s .idle [] rfl rfl hc rfl (.inr rfl), ← hp]

end Sys2Proof.Machine
end

section
/-! When the output register may change (R203, R207, R256). -/

namespace Sys2Proof.Machine

/-- Settles O22: an edge that signals no DATA_OK at most delivers the waiting frame, and one that signals it fills the register it
found empty (`step_out_cases`); each clause of the statement is one of these cases. -/
theorem outputChangesOnlyWhenEmitting : Obligations.OutputChangesOnlyWhenEmitting := by
  intro s t v rest hrst h
  obtain ⟨hsilent, hout⟩ | ⟨hsig, hemits⟩ := step_out_cases hrst h
  · refine ⟨fun _ => hout, fun hsig => ?_⟩
    rw [hsilent] at hsig; cases hsig
  · refine ⟨fun hsilent => ?_, fun _ => hemits⟩
    rw [hsig] at hsilent; cases hsilent

end Sys2Proof.Machine
end
